-- ==== Sys2Proof/Word.lean ====
section
/-! DEFINITION. The machine's word types (00_scope R10, 30_encoding R71). -/

namespace Sys2Proof

/-- A byte: a memory cell, a general register, an immediate `kk`. -/
abbrev Byte := BitVec 8

/-- A 16-bit word: an instruction, `pc`, `I`, a stack cell. -/
abbrev Word := BitVec 16

/-- The 12-bit address operand `nnn`. -/
abbrev Addr12 := BitVec 12

/-- A nibble of an instruction word. -/
abbrev Nibble := BitVec 4

/-- The number of a general register `V[0]` .. `V[15]`, or of a key. -/
abbrev Reg := Fin 16

/-- `VF`, which doubles as the flag register (10_state R21). -/
abbrev vf : Reg := 15

end Sys2Proof
end

