-- ==== Sys2Proof/Syntax.lean ====
section
/-! DEFINITION. The instructions: one constructor per row of the opcode map (30_encoding R75). A field that the
hardware ignores (the low nibble of families 5 and 9, the `y` of the shifts) is kept, so that a word and its
instruction determine each other (log 11). -/

namespace Sys2Proof

/-- The 38 rows of the opcode map: 35 instructions and the three catch-all rows. -/
inductive Instr where
  /-- `00E0` CLS. -/
  | cls
  /-- `00EE` RET. -/
  | ret
  /-- `0nnn` SYS nnn. -/
  | sys (nnn : Addr12)
  /-- `1nnn` JP nnn. -/
  | jp (nnn : Addr12)
  /-- `2nnn` CALL nnn. -/
  | call (nnn : Addr12)
  /-- `3xkk` SE Vx, kk. -/
  | seImm (x : Reg) (kk : Byte)
  /-- `4xkk` SNE Vx, kk. -/
  | sneImm (x : Reg) (kk : Byte)
  /-- `5xy0` SE Vx, Vy; the low nibble `n` is ignored (R77). -/
  | seReg (x y : Reg) (n : Nibble)
  /-- `6xkk` LD Vx, kk. -/
  | ldImm (x : Reg) (kk : Byte)
  /-- `7xkk` ADD Vx, kk. -/
  | addImm (x : Reg) (kk : Byte)
  /-- `8xy0` LD Vx, Vy. -/
  | ldReg (x y : Reg)
  /-- `8xy1` OR Vx, Vy. -/
  | orReg (x y : Reg)
  /-- `8xy2` AND Vx, Vy. -/
  | andReg (x y : Reg)
  /-- `8xy3` XOR Vx, Vy. -/
  | xorReg (x y : Reg)
  /-- `8xy4` ADD Vx, Vy. -/
  | addReg (x y : Reg)
  /-- `8xy5` SUB Vx, Vy. -/
  | subReg (x y : Reg)
  /-- `8xy6` SHR Vx; the `y` field is ignored (43_alu R136). -/
  | shr (x y : Reg)
  /-- `8xy7` SUBN Vx, Vy. -/
  | subn (x y : Reg)
  /-- `8xyE` SHL Vx; the `y` field is ignored (43_alu R138). -/
  | shl (x y : Reg)
  /-- `8xyN` with any other low nibble `n` (43_alu R139). -/
  | unknown8 (x y : Reg) (n : Nibble)
  /-- `9xy0` SNE Vx, Vy; the low nibble `n` is ignored (R77). -/
  | sneReg (x y : Reg) (n : Nibble)
  /-- `Annn` LD I, nnn. -/
  | ldI (nnn : Addr12)
  /-- `Bnnn` JP V0, nnn. -/
  | jpV0 (nnn : Addr12)
  /-- `Cxkk` RND Vx, kk. -/
  | rnd (x : Reg) (kk : Byte)
  /-- `Dxyn` DRW Vx, Vy, n. -/
  | drw (x y : Reg) (n : Nibble)
  /-- `Ex9E` SKP Vx. -/
  | skp (x : Reg)
  /-- `ExA1` SKNP Vx. -/
  | sknp (x : Reg)
  /-- `Exkk` with any other low byte (46_keyboard R173). -/
  | unknownE (x : Reg) (kk : Byte)
  /-- `Fx07` LD Vx, DT. -/
  | ldVxDT (x : Reg)
  /-- `Fx0A` LD Vx, K. -/
  | ldVxK (x : Reg)
  /-- `Fx15` LD DT, Vx. -/
  | ldDTVx (x : Reg)
  /-- `Fx18` LD ST, Vx. -/
  | ldSTVx (x : Reg)
  /-- `Fx1E` ADD I, Vx. -/
  | addIVx (x : Reg)
  /-- `Fx29` LD F, Vx. -/
  | ldF (x : Reg)
  /-- `Fx33` LD B, Vx. -/
  | ldB (x : Reg)
  /-- `Fx55` LD [I], Vx. -/
  | ldIVx (x : Reg)
  /-- `Fx65` LD Vx, [I]. -/
  | ldVxI (x : Reg)
  /-- `Fxkk` with any other low byte (47_timers R183). -/
  | unknownF (x : Reg) (kk : Byte)
  deriving DecidableEq, Repr

end Sys2Proof
end

