-- ==== Sys2Proof/WellFormed.lean ====
section
/-! DEFINITION. Which instructions the opcode map can select (30_encoding R75, R78, R79): the words of an earlier
row are not words of a later one. -/

namespace Sys2Proof

/-- The low nibbles of family 8 that name an operation (30_encoding R75 rows 11 to 19). -/
def aluNibbles : List Nibble := [0x0, 0x1, 0x2, 0x3, 0x4, 0x5, 0x6, 0x7, 0xE]

/-- The low bytes of family E that name an instruction (rows 26, 27). -/
def keyBytes : List Byte := [0x9E, 0xA1]

/-- The low bytes of family F that name an instruction (rows 29 to 37). -/
def miscBytes : List Byte := [0x07, 0x0A, 0x15, 0x18, 0x1E, 0x29, 0x33, 0x55, 0x65]

/-- An instruction as first-match decoding can give it: `SYS` is neither `CLS` nor `RET`, and an UNKNOWN row holds
only the sub-opcodes that no instruction of its family has. -/
def Instr.wf : Instr → Bool
  | .sys nnn => nnn != 0x0E0 && nnn != 0x0EE
  | .unknown8 _ _ n => !aluNibbles.contains n
  | .unknownE _ kk => !keyBytes.contains kk
  | .unknownF _ kk => !miscBytes.contains kk
  | .cls | .ret | .jp _ | .call _ | .seImm _ _ | .sneImm _ _ | .seReg _ _ _ | .ldImm _ _ | .addImm _ _
  | .ldReg _ _ | .orReg _ _ | .andReg _ _ | .xorReg _ _ | .addReg _ _ | .subReg _ _ | .shr _ _ | .subn _ _
  | .shl _ _ | .sneReg _ _ _ | .ldI _ | .jpV0 _ | .rnd _ _ | .drw _ _ _ | .skp _ | .sknp _ | .ldVxDT _
  | .ldVxK _ | .ldDTVx _ | .ldSTVx _ | .addIVx _ | .ldF _ | .ldB _ | .ldIVx _ | .ldVxI _ => true

end Sys2Proof
end

