-- ==== Sys2Proof/Decode.lean ====
section
/-! DEFINITION. The decoder (30_encoding R71 to R79) and the encoder (R83), both written from the spec's formats. -/

namespace Sys2Proof

/-! ### Fields of the word (30_encoding R71) -/

/-- `w[15:12]`, the opcode family. -/
def fieldFam (w : Word) : Nibble := w.extractLsb' 12 4

/-- `w[11:8]`, the first register number. -/
def fieldX (w : Word) : Reg := (w.extractLsb' 8 4).toFin

/-- `w[7:4]`, the second register number. -/
def fieldY (w : Word) : Reg := (w.extractLsb' 4 4).toFin

/-- `w[3:0]`, the row count or sub-opcode. -/
def fieldN (w : Word) : Nibble := w.extractLsb' 0 4

/-- `w[7:0]`, the immediate or sub-opcode byte. -/
def fieldKK (w : Word) : Byte := w.extractLsb' 0 8

/-- `w[11:0]`, the address. -/
def fieldNNN (w : Word) : Addr12 := w.extractLsb' 0 12

/-! ### The decoder (30_encoding R74, R75) -/

/-- Family 0: rows 1 and 2 come before row 3. -/
def decode0 (nnn : Addr12) : Instr :=
  if nnn = 0x0E0 then .cls else if nnn = 0x0EE then .ret else .sys nnn

/-- Family 8: rows 11 to 20, by the low nibble (R76, log 12). -/
def decode8 (x y : Reg) (n : Nibble) : Instr :=
  match n.toNat with
  | 0x0 => .ldReg x y
  | 0x1 => .orReg x y
  | 0x2 => .andReg x y
  | 0x3 => .xorReg x y
  | 0x4 => .addReg x y
  | 0x5 => .subReg x y
  | 0x6 => .shr x y
  | 0x7 => .subn x y
  | 0xE => .shl x y
  | _ => .unknown8 x y n

/-- Family E: rows 26 to 28, by the low byte. -/
def decodeE (x : Reg) (kk : Byte) : Instr :=
  match kk.toNat with
  | 0x9E => .skp x
  | 0xA1 => .sknp x
  | _ => .unknownE x kk

/-- Family F: rows 29 to 38, by the low byte. -/
def decodeF (x : Reg) (kk : Byte) : Instr :=
  match kk.toNat with
  | 0x07 => .ldVxDT x
  | 0x0A => .ldVxK x
  | 0x15 => .ldDTVx x
  | 0x18 => .ldSTVx x
  | 0x1E => .addIVx x
  | 0x29 => .ldF x
  | 0x33 => .ldB x
  | 0x55 => .ldIVx x
  | 0x65 => .ldVxI x
  | _ => .unknownF x kk

/-- The decoder of 30_encoding R74: a pure, total function of the word. Families 5 and 9 ignore the low nibble
(R77, log 11). -/
def decodeWord (w : Word) : Instr :=
  match (fieldFam w).toNat with
  | 0x0 => decode0 (fieldNNN w)
  | 0x1 => .jp (fieldNNN w)
  | 0x2 => .call (fieldNNN w)
  | 0x3 => .seImm (fieldX w) (fieldKK w)
  | 0x4 => .sneImm (fieldX w) (fieldKK w)
  | 0x5 => .seReg (fieldX w) (fieldY w) (fieldN w)
  | 0x6 => .ldImm (fieldX w) (fieldKK w)
  | 0x7 => .addImm (fieldX w) (fieldKK w)
  | 0x8 => decode8 (fieldX w) (fieldY w) (fieldN w)
  | 0x9 => .sneReg (fieldX w) (fieldY w) (fieldN w)
  | 0xA => .ldI (fieldNNN w)
  | 0xB => .jpV0 (fieldNNN w)
  | 0xC => .rnd (fieldX w) (fieldKK w)
  | 0xD => .drw (fieldX w) (fieldY w) (fieldN w)
  | 0xE => decodeE (fieldX w) (fieldKK w)
  | _ => decodeF (fieldX w) (fieldKK w)

/-- Why bytes are no instruction. -/
inductive DecodeError where
  /-- Fewer than the two bytes that every instruction has (30_encoding R70). Safe: nothing is decoded. -/
  | tooFewBytes
  deriving DecidableEq, Repr

/-- The word two bytes make, the first the high one (20_memory R53). -/
def wordOfBytes (hi lo : Byte) : Word := hi ++ lo

/-- The two bytes of a word in the order they are stored (30_encoding R83). -/
def bytesOfWord (w : Word) : List Byte := [w.extractLsb' 8 8, w.extractLsb' 0 8]

/-- Decode the instruction that stands first in some bytes, and give the bytes after it. -/
def decodeBytes : List Byte → Except DecodeError (Instr × List Byte)
  | hi :: lo :: rest => .ok (decodeWord (wordOfBytes hi lo), rest)
  | [_] => .error .tooFewBytes
  | [] => .error .tooFewBytes

/-- The bytes of an instruction whose low `nbits` bits are given, as memory stores them; its other bits are 0. -/
def tableBytes (nbits w : Nat) : List Byte := bytesOfWord (BitVec.ofNat 16 (w % 2 ^ nbits))

/-- The instruction the decoder reads from a word numbered as spec/opcode_table.json numbers its bits: the word is
laid out high byte first, as memory stores it, and decoded from there. -/
def decodeTableWord (nbits w : Nat) : Option Instr :=
  if nbits > 16 then none
  else
    match decodeBytes (tableBytes nbits w) with
    | .ok (i, _) => some i
    | .error _ => none

/-! ### The encoder (30_encoding R72, R83) -/

/-- Format ADDR: the family, then `nnn`. -/
def packNNN (fam : Nibble) (nnn : Addr12) : Word := fam ++ nnn

/-- Formats XKK and XOP: the family, `x`, then a byte. -/
def packXKK (fam : Nibble) (x : Reg) (kk : Byte) : Word := (fam ++ (BitVec.ofFin x : Nibble)) ++ kk

/-- Format XYN: the family, `x`, `y`, then a nibble. -/
def packXYN (fam : Nibble) (x y : Reg) (n : Nibble) : Word :=
  ((fam ++ (BitVec.ofFin x : Nibble)) ++ (BitVec.ofFin y : Nibble)) ++ n

/-- The word of an instruction, from the encoding column of the opcode map (30_encoding R75). -/
def encode : Instr → Word
  | .cls => 0x00E0
  | .ret => 0x00EE
  | .sys nnn => packNNN 0x0 nnn
  | .jp nnn => packNNN 0x1 nnn
  | .call nnn => packNNN 0x2 nnn
  | .seImm x kk => packXKK 0x3 x kk
  | .sneImm x kk => packXKK 0x4 x kk
  | .seReg x y n => packXYN 0x5 x y n
  | .ldImm x kk => packXKK 0x6 x kk
  | .addImm x kk => packXKK 0x7 x kk
  | .ldReg x y => packXYN 0x8 x y 0x0
  | .orReg x y => packXYN 0x8 x y 0x1
  | .andReg x y => packXYN 0x8 x y 0x2
  | .xorReg x y => packXYN 0x8 x y 0x3
  | .addReg x y => packXYN 0x8 x y 0x4
  | .subReg x y => packXYN 0x8 x y 0x5
  | .shr x y => packXYN 0x8 x y 0x6
  | .subn x y => packXYN 0x8 x y 0x7
  | .shl x y => packXYN 0x8 x y 0xE
  | .unknown8 x y n => packXYN 0x8 x y n
  | .sneReg x y n => packXYN 0x9 x y n
  | .ldI nnn => packNNN 0xA nnn
  | .jpV0 nnn => packNNN 0xB nnn
  | .rnd x kk => packXKK 0xC x kk
  | .drw x y n => packXYN 0xD x y n
  | .skp x => packXKK 0xE x 0x9E
  | .sknp x => packXKK 0xE x 0xA1
  | .unknownE x kk => packXKK 0xE x kk
  | .ldVxDT x => packXKK 0xF x 0x07
  | .ldVxK x => packXKK 0xF x 0x0A
  | .ldDTVx x => packXKK 0xF x 0x15
  | .ldSTVx x => packXKK 0xF x 0x18
  | .addIVx x => packXKK 0xF x 0x1E
  | .ldF x => packXKK 0xF x 0x29
  | .ldB x => packXKK 0xF x 0x33
  | .ldIVx x => packXKK 0xF x 0x55
  | .ldVxI x => packXKK 0xF x 0x65
  | .unknownF x kk => packXKK 0xF x kk

/-! ### The opcode map as a table (30_encoding R75) -/

/-- One row of the opcode map: its mask and its match value. -/
structure OpcodeRow where
  order : Nat
  mask : Word
  value : Word
  deriving DecidableEq, Repr

/-- Rows 1 to 20 of the opcode map. -/
def opcodeRowsLow : List OpcodeRow :=
  [⟨1, 0xFFFF, 0x00E0⟩, ⟨2, 0xFFFF, 0x00EE⟩, ⟨3, 0xF000, 0x0000⟩, ⟨4, 0xF000, 0x1000⟩, ⟨5, 0xF000, 0x2000⟩,
   ⟨6, 0xF000, 0x3000⟩, ⟨7, 0xF000, 0x4000⟩, ⟨8, 0xF000, 0x5000⟩, ⟨9, 0xF000, 0x6000⟩, ⟨10, 0xF000, 0x7000⟩,
   ⟨11, 0xF00F, 0x8000⟩, ⟨12, 0xF00F, 0x8001⟩, ⟨13, 0xF00F, 0x8002⟩, ⟨14, 0xF00F, 0x8003⟩, ⟨15, 0xF00F, 0x8004⟩,
   ⟨16, 0xF00F, 0x8005⟩, ⟨17, 0xF00F, 0x8006⟩, ⟨18, 0xF00F, 0x8007⟩, ⟨19, 0xF00F, 0x800E⟩, ⟨20, 0xF000, 0x8000⟩]

/-- Rows 21 to 38 of the opcode map. -/
def opcodeRowsHigh : List OpcodeRow :=
  [⟨21, 0xF000, 0x9000⟩, ⟨22, 0xF000, 0xA000⟩, ⟨23, 0xF000, 0xB000⟩, ⟨24, 0xF000, 0xC000⟩, ⟨25, 0xF000, 0xD000⟩,
   ⟨26, 0xF0FF, 0xE09E⟩, ⟨27, 0xF0FF, 0xE0A1⟩, ⟨28, 0xF000, 0xE000⟩, ⟨29, 0xF0FF, 0xF007⟩, ⟨30, 0xF0FF, 0xF00A⟩,
   ⟨31, 0xF0FF, 0xF015⟩, ⟨32, 0xF0FF, 0xF018⟩, ⟨33, 0xF0FF, 0xF01E⟩, ⟨34, 0xF0FF, 0xF029⟩, ⟨35, 0xF0FF, 0xF033⟩,
   ⟨36, 0xF0FF, 0xF055⟩, ⟨37, 0xF0FF, 0xF065⟩, ⟨38, 0xF000, 0xF000⟩]

/-- The opcode map in its first-match order. -/
def opcodeRows : List OpcodeRow := opcodeRowsLow ++ opcodeRowsHigh

/-- The order number of the first row that a word matches (30_encoding R75). -/
def firstMatch (w : Word) : Option Nat :=
  (opcodeRows.find? fun r => w &&& r.mask == r.value).map OpcodeRow.order

/-- The row of the opcode map that an instruction stands for. -/
def Instr.rowOrder : Instr → Nat
  | .cls => 1
  | .ret => 2
  | .sys _ => 3
  | .jp _ => 4
  | .call _ => 5
  | .seImm _ _ => 6
  | .sneImm _ _ => 7
  | .seReg _ _ _ => 8
  | .ldImm _ _ => 9
  | .addImm _ _ => 10
  | .ldReg _ _ => 11
  | .orReg _ _ => 12
  | .andReg _ _ => 13
  | .xorReg _ _ => 14
  | .addReg _ _ => 15
  | .subReg _ _ => 16
  | .shr _ _ => 17
  | .subn _ _ => 18
  | .shl _ _ => 19
  | .unknown8 _ _ _ => 20
  | .sneReg _ _ _ => 21
  | .ldI _ => 22
  | .jpV0 _ => 23
  | .rnd _ _ => 24
  | .drw _ _ _ => 25
  | .skp _ => 26
  | .sknp _ => 27
  | .unknownE _ _ => 28
  | .ldVxDT _ => 29
  | .ldVxK _ => 30
  | .ldDTVx _ => 31
  | .ldSTVx _ => 32
  | .addIVx _ => 33
  | .ldF _ => 34
  | .ldB _ => 35
  | .ldIVx _ => 36
  | .ldVxI _ => 37
  | .unknownF _ _ => 38

end Sys2Proof
end

