-- ==== Sys2Proof/Config.lean ====
section
/-! DEFINITION. What an implementation fixes (00_scope R6 to R8) and the machine's one free value (R9). -/

namespace Sys2Proof

/-- The parameter `DRAW_EDGE` (00_scope R8): what `Dxyn` does with a target cell outside the grid. -/
inductive DrawEdge where
  /-- Reduce each target modulo 64 and 32 (45_display R162). -/
  | wrap
  /-- Raise `OutOfBounds` before any cell changes (45_display R163). -/
  | reject
  deriving DecidableEq, Repr

/-- The configuration of one machine: the three parameters of 00_scope R6 to R8.
DESIGN CHOICE (log 2): it stands in `State`, constant in every run, because `exec` is a function of the state
alone; so a statement about every state is one about every configuration. Safe. -/
structure Config where
  /-- `DRAW_EDGE` (R8). -/
  drawEdge : DrawEdge
  /-- `CLOCK_HZ` (R6), instructions per second. -/
  clockHz : Nat
  /-- `FONT` (R7), the glyph table that `reset` writes to memory from address 0. -/
  font : Vector Byte 80
  deriving DecidableEq, Repr

/-- `CLOCK_HZ` is a positive integer (00_scope R6). -/
def Config.wf (c : Config) : Bool := 0 < c.clockHz

/-- The `n`-th byte the host's random source gives to `Cxkk` (00_scope R9, 60_exceptions R217).
It has no body: a draw under no law (log 1). Safe. -/
opaque Config.randomByte : Nat → Byte

end Sys2Proof
end

