-- ==== Sys2Proof/Machine/Defaults.lean ====
section
/-! DEFINITION. The default values of the three parameters (00_scope R6 to R8, 70_reset_and_hazards R251). -/

namespace Sys2Proof.Machine

/-- The default `FONT`: the glyphs of digits 0 to F, five bytes each (70_reset_and_hazards R251).
UNVERIFIED (log 4): the spec gives the bytes from general knowledge. Unsafe for claims that draw or read glyphs. -/
def defaultFont : Vector Byte 80 := #v[
  0xF0, 0x90, 0x90, 0x90, 0xF0,  0x20, 0x60, 0x20, 0x20, 0x70,
  0xF0, 0x10, 0xF0, 0x80, 0xF0,  0xF0, 0x10, 0xF0, 0x10, 0xF0,
  0x90, 0x90, 0xF0, 0x10, 0x10,  0xF0, 0x80, 0xF0, 0x10, 0xF0,
  0xF0, 0x80, 0xF0, 0x90, 0xF0,  0xF0, 0x10, 0x20, 0x40, 0x40,
  0xF0, 0x90, 0xF0, 0x90, 0xF0,  0xF0, 0x90, 0xF0, 0x10, 0xF0,
  0xF0, 0x90, 0xF0, 0x90, 0x90,  0xE0, 0x90, 0xE0, 0x90, 0xE0,
  0xF0, 0x80, 0x80, 0x80, 0xF0,  0xE0, 0x90, 0x90, 0x90, 0xE0,
  0xF0, 0x80, 0xF0, 0x80, 0xF0,  0xF0, 0x80, 0xF0, 0x80, 0x80]

/-- The configuration at `State.reset`: the spec's default `DRAW_EDGE = wrap` (R8, log 2), its example rate 300
(R6, log 3) and its default `FONT` (R7, log 4). DESIGN CHOICE; unsafe for a claim about runs from `State.reset`
that is read as one about every machine. -/
def defaultConfig : Config := { drawEdge := .wrap, clockHz := 300, font := defaultFont }

end Sys2Proof.Machine
end

