-- ==== Sys2Proof/Machine/State.lean ====
section
/-! DEFINITION. The machine's state, its error kinds and the state after reset (10_state, 60_exceptions R200). -/

namespace Sys2Proof.Machine

/-- The error kinds of 60_exceptions R200. A step that raises one changes nothing (R201); the state it leaves is the
state before it. -/
inductive Fault where
  /-- Raised by the host event `load_program` only, for an image over 3584 bytes (70_reset_and_hazards R253); never
  by a step. Safe: nothing is loaded. -/
  | romTooLarge
  /-- Raised by `2nnn` when 32 return addresses are held (40_control_flow R105). Safe: the spec's own error. -/
  | stackOverflow
  /-- Raised by `00EE` when no return address is held (40_control_flow R103). Safe: the spec's own error. -/
  | stackUnderflow
  /-- Raised by the three UNKNOWN rows (43_alu R139, 46_keyboard R173, 47_timers R183). Safe: the spec's own error. -/
  | invalidOpcode
  /-- Raised by the fetch when `pc > 4094` (40_control_flow R100), by `Fx33`, `Fx55`, `Fx65`, `Dxyn` past address 4095
  (44_index_memory R153 to R155, 45_display R161), by `Dxyn` beyond the grid under `reject` (45_display R163), and by
  `Ex9E`, `ExA1` with a key index above 15 (46_keyboard R174). Safe: the spec's own error. -/
  | outOfBounds
  deriving DecidableEq, Repr

/-- Why a step gives an instruction no meaning. -/
inductive Refusal where
  /-- Raised by `exec` for an instruction not modelled yet; no arm raises it now. Safe. -/
  | notModelled (mnemonic : String)
  deriving DecidableEq, Repr

/-- Memory as the bytes that differ from what an unlisted address reads as (`Memory.unlisted`), by rising address.
Its canonical form is `Memory.wf`. -/
abbrev Memory := List Host.Cell

/-- The display: 32 rows of 64 one-bit cells (10_state R26), row `cy`, then column `cx`. -/
abbrev Display := Vector (Vector Bool 64) 32

/-- Everything the spec gives the machine (10_state R20 to R29), and two fields of the model's own, `draws` and `cfg`
(10_state R30 makes them inputs and parameters; `exec` takes the state alone, log 1 and log 2). -/
structure State where
  /-- `V[0]` .. `V[15]` (R20, R21). -/
  v : Vector Byte 16
  /-- `I` (R22). -/
  i : Word
  /-- `pc` (R23). -/
  pc : Word
  /-- `mem[0..4095]` (R24). -/
  mem : Memory
  /-- `stack[0..31]` (R25). -/
  stack : Vector Word 32
  /-- `sp`, 0 to 32 (R25). -/
  sp : Fin 33
  /-- `disp` (R26). -/
  disp : Display
  /-- `key[0..15]` (R27). -/
  key : Vector Bool 16
  /-- `DT` (R28). -/
  dt : Byte
  /-- `ST` (R28). -/
  st : Byte
  /-- `acc`, in units of `1 / CLOCK_HZ` ms (R29). -/
  acc : Nat
  /-- The model's own: how many random bytes `Cxkk` has drawn (log 1). -/
  draws : Nat
  /-- The model's own: the machine's parameters, constant in every run (log 2). -/
  cfg : Config
  deriving DecidableEq, Repr

/-- The state after `reset` (10_state R31) under the default parameters. Memory lists nothing: an unlisted address
reads as what `reset` writes there. -/
def State.reset : State where
  v := Vector.replicate 16 0
  i := 0
  pc := 0
  mem := []
  stack := Vector.replicate 32 0
  sp := 0
  disp := Vector.replicate 32 (Vector.replicate 64 false)
  key := Vector.replicate 16 false
  dt := 0
  st := 0
  acc := 0
  draws := 0
  cfg := defaultConfig

end Sys2Proof.Machine
end

