-- ==== Sys2Proof/Machine/Ops.lean ====
section
/-! DEFINITION. The named operations over registers, memory, stack, keys and display (00_scope R11 to R17), the fetch
(40_control_flow R100), and how an error ends a step (60_exceptions R201, R204). -/

namespace Sys2Proof.Machine

/-- What one step gives. -/
abbrev Result := Host.Outcome State Fault Refusal

/-- `raise <Kind>` (00_scope R14, 60_exceptions R204): the step ends with the kind and commits nothing. There is no
vector, no saved register and no mode, so the kind is the whole of error entry; `tick` reports it to the host. -/
def raise (f : Fault) : Result := .fault f

/-! ### One update per field -/

/-- `I <- w`. -/
def State.setI (s : State) (w : Word) : State := { s with i := w }

/-- `pc <- w`. -/
def State.setPc (s : State) (w : Word) : State := { s with pc := w }

/-- All of memory at once. -/
def State.setMem (s : State) (m : Memory) : State := { s with mem := m }

/-- The stack's cells and depth. -/
def State.setStack (s : State) (cells : Vector Word 32) (depth : Fin 33) : State :=
  { s with stack := cells, sp := depth }

/-- All of the display at once. -/
def State.setDisp (s : State) (d : Display) : State := { s with disp := d }

/-- `DT <- b`. -/
def State.setDT (s : State) (b : Byte) : State := { s with dt := b }

/-- `ST <- b`. -/
def State.setST (s : State) (b : Byte) : State := { s with st := b }

/-- `acc <- n`. -/
def State.setAcc (s : State) (n : Nat) : State := { s with acc := n }

/-- One more random byte has been drawn (log 1). -/
def State.countDraw (s : State) : State := { s with draws := s.draws + 1 }

/-! ### Registers (10_state R20 to R23) -/

/-- `V[r]`. -/
def State.reg (s : State) (r : Reg) : Byte := s.v.get r

/-- `V[r] <- b`. -/
def State.setReg (s : State) (r : Reg) (b : Byte) : State := { s with v := s.v.set r.val b r.isLt }

/-- The default end of an instruction, `pc <- pc + 2` (00_scope R15, 40_control_flow R101). -/
def State.advance (s : State) : State := s.setPc (s.pc + 2)

/-- "skip": `pc <- pc + 4` when the condition holds, else `pc <- pc + 2` (00_scope R15). -/
def State.skipIf (s : State) (c : Bool) : State := s.setPc (if c then s.pc + 4 else s.pc + 2)

/-! ### Memory (20_memory) -/

/-- What an address that memory does not list reads as: its reset contents under the default `FONT` (10_state R24,
70_reset_and_hazards R251, log 25). -/
def Memory.unlisted (a : Nat) : Byte := if h : a < 80 then defaultFont.get ⟨a, h⟩ else 0

/-- The byte at an address. -/
def Memory.read : Memory → Nat → Byte
  | [], a => Memory.unlisted a
  | (b, w) :: rest, a => if a = b then w else Memory.read rest a

/-- Put a byte in front of later entries, unless the address reads so unlisted. -/
def Memory.link (a : Nat) (w : Byte) (rest : Memory) : Memory :=
  if w = Memory.unlisted a then rest else (a, w) :: rest

/-- Store a byte, keeping the canonical form. -/
def Memory.write : Memory → Nat → Byte → Memory
  | [], a, w => Memory.link a w []
  | (b, u) :: rest, a, w =>
    if a < b then Memory.link a w ((b, u) :: rest)
    else if a = b then Memory.link a w rest
    else (b, u) :: Memory.write rest a w

/-- Store consecutive bytes from an address upward. -/
def Memory.writeList : Memory → Nat → List Byte → Memory
  | m, _, [] => m
  | m, a, b :: bs => Memory.writeList (m.write a b) (a + 1) bs

/-- The canonical form from an address `lo` upward: addresses strictly rising within 0..4095, and no entry equal to
what its address reads as unlisted. -/
def Memory.wfFrom (lo : Nat) : Memory → Bool
  | [] => true
  | (a, w) :: rest => decide (lo ≤ a) && decide (a < 4096) && (w != Memory.unlisted a) && Memory.wfFrom (a + 1) rest

/-- The canonical form of memory. -/
def Memory.wf (m : Memory) : Bool := Memory.wfFrom 0 m

/-- `mem[a]`. -/
def State.byteAt (s : State) (a : Nat) : Byte := s.mem.read a

/-- The bound of 00_scope R13 and 20_memory R52: `n` bytes at `a` lie in 0..4095; zero bytes always do (log 9). -/
def inMemory (a n : Nat) : Bool := n == 0 || decide (a + n - 1 ≤ 4095)

/-- `MemRead(a, n)` (00_scope R13). -/
def State.memRead (s : State) (a n : Nat) : Except Fault (List Byte) :=
  if inMemory a n then .ok ((List.range n).map fun k => s.byteAt (a + k)) else .error .outOfBounds

/-- `MemWrite(a, n, bs)` (00_scope R13). -/
def State.memWrite (s : State) (a : Nat) (bs : List Byte) : Except Fault State :=
  if inMemory a bs.length then .ok (s.setMem (s.mem.writeList a bs)) else .error .outOfBounds

/-- The instruction fetch (40_control_flow R100, 20_memory R53): two bytes at `pc`, the high byte first, at any `pc`
up to 4094, odd or even (log 8, log 10). -/
def fetch (s : State) : Except Fault Word :=
  if s.pc.toNat > 4094 then .error .outOfBounds
  else .ok (wordOfBytes (s.byteAt s.pc.toNat) (s.byteAt (s.pc.toNat + 1)))

/-- Place an instruction, numbered as spec/opcode_table.json numbers its bits, where the next step fetches; a `pc`
above 4094 fetches nothing and is first set to the entry point 0x200 (70_reset_and_hazards R252, log 5). -/
def placeFetchWord (s : State) (nbits w : Nat) : State :=
  let t := if s.pc.toNat > 4094 then s.setPc 0x200 else s
  t.setMem (t.mem.writeList t.pc.toNat (tableBytes nbits w))

/-! ### The call stack (00_scope R16, 10_state R25) -/

/-- `Push(v)`. -/
def State.push (s : State) (w : Word) : Except Fault State :=
  if h : s.sp.val < 32 then
    .ok (s.setStack (s.stack.set s.sp.val w h) ⟨s.sp.val + 1, by omega⟩)
  else .error .stackOverflow

/-- `Pop()`: the popped value and the state after it. The cell keeps its old content. -/
def State.pop (s : State) : Except Fault (Word × State) :=
  if h : 0 < s.sp.val then
    .ok (s.stack.get ⟨s.sp.val - 1, by omega⟩, s.setStack s.stack ⟨s.sp.val - 1, by omega⟩)
  else .error .stackUnderflow

/-! ### The key latch (00_scope R17, 10_state R27) -/

/-- `key[k]`. -/
def State.keyAt (s : State) (k : Reg) : Bool := s.key.get k

/-- `key[k] <- p`. -/
def State.setKey (s : State) (k : Reg) (p : Bool) : State := { s with key := s.key.set k.val p k.isLt }

/-- The least latched key, if any (46_keyboard R172, R175, log 17). -/
def State.leastKey (s : State) : Option Reg := (List.finRange 16).find? s.keyAt

/-! ### The display (10_state R26) -/

/-- `disp(cx, cy)` of a display. -/
def Display.cell (d : Display) (cx : Fin 64) (cy : Fin 32) : Bool := (d.get cy).get cx

/-- `disp(cx, cy) <- disp(cx, cy) ^ 1`. -/
def Display.toggle (d : Display) (cx : Fin 64) (cy : Fin 32) : Display :=
  d.set cy.val ((d.get cy).set cx.val (!Display.cell d cx cy) cx.isLt) cy.isLt

/-- Every cell 0. -/
def Display.clear : Display := Vector.replicate 32 (Vector.replicate 64 false)

/-- `disp(cx, cy)`. -/
def State.pixel (s : State) (cx : Fin 64) (cy : Fin 32) : Bool := Display.cell s.disp cx cy

end Sys2Proof.Machine
end

