-- ==== Sys2Proof/Machine/Operands.lean ====
section
/-! DEFINITION. The operand forms (30_encoding R73, 44_index_memory R156, 45_display R164, 46_keyboard R174). -/

namespace Sys2Proof.Machine

/-- `zext_16(nnn)` (30_encoding R73). -/
def addrWord (nnn : Addr12) : Word := nnn.setWidth 16

/-- The effective address `I + k`, exact (44_index_memory R156). -/
def State.dataAddr (s : State) (k : Nat) : Nat := s.i.toNat + k

/-- `V[0]` .. `V[x]`, the registers of `Fx55` (44_index_memory R154). -/
def State.regsUpTo (s : State) (x : Reg) : List Byte := ((List.finRange 16).take (x.val + 1)).map s.reg

/-- Load bytes into `V[k]`, `V[k+1]`, ... (44_index_memory R155); bytes past `V[15]` are dropped, and no caller has
any. -/
def State.loadRegs (s : State) (k : Nat) : List Byte → State
  | [] => s
  | b :: bs => if h : k < 16 then State.loadRegs (s.setReg ⟨k, h⟩ b) (k + 1) bs else s

/-- The decimal digits of a byte: hundreds, tens, ones (44_index_memory R153). -/
def bcd (b : Byte) : List Byte :=
  [BitVec.ofNat 8 (b.toNat / 100), BitVec.ofNat 8 (b.toNat / 10 % 10), BitVec.ofNat 8 (b.toNat % 10)]

/-- `bit(b, c) = (b >> (7 - c)) & 1`: sprite column 0 is bit 7 (45_display R164, log 15). -/
def spriteBit (b : Byte) (c : Nat) : Bool := b.getLsbD (7 - c)

/-- The display column and row of a sprite bit under `wrap` (45_display R162). -/
def wrapCol (n : Nat) : Fin 64 := ⟨n % 64, Nat.mod_lt _ (by decide)⟩

/-- See `wrapCol`. -/
def wrapRow (n : Nat) : Fin 32 := ⟨n % 32, Nat.mod_lt _ (by decide)⟩

/-- The key a byte names: 0 to 15, else none (46_keyboard R174, log 16). -/
def keyOfByte (b : Byte) : Option Reg := if h : b.toNat < 16 then some ⟨b.toNat, h⟩ else none

end Sys2Proof.Machine
end

