-- ==== Sys2Proof/Machine/Flags.lean ====
section
/-! DEFINITION. The flag values that instructions write to `VF` (10_state R21). -/

namespace Sys2Proof.Machine

/-- A flag as a byte. -/
def flagByte (c : Bool) : Byte := if c then 1 else 0

/-- The carry of `8xy4`: 1 if the sum exceeds 255 (43_alu R134). -/
def carryFlag (a b : Byte) : Byte := flagByte (decide (a.toNat + b.toNat > 255))

/-- The not-borrow of `8xy5`, `8xy7`: 1 if minuend >= subtrahend, unsigned (43_alu R135, R137). -/
def notBorrow (a b : Byte) : Byte := flagByte (decide (a.toNat ≥ b.toNat))

/-- The bit `8xy6` shifts out (43_alu R136). -/
def lowBit (a : Byte) : Byte := a &&& 1

/-- The bit `8xyE` shifts out (43_alu R138). -/
def highBit (a : Byte) : Byte := (a >>> 7) &&& 1

/-- `V[15] <- f`. -/
def State.setFlag (s : State) (f : Byte) : State := s.setReg vf f

end Sys2Proof.Machine
end

