-- ==== Sys2Proof/Machine/Alu.lean ====
section
/-! DEFINITION. The register-register group, family 8 (43_alu; which nibble is which operation: log 12). -/

namespace Sys2Proof.Machine

/-- `V[x] <- b`, then the default advance: the copy and logic forms, which write no flag. -/
def State.putReg (s : State) (x : Reg) (b : Byte) : State := (s.setReg x b).advance

/-- `V[x] <- b`, THEN `VF <- f`, then the advance: the order of ADD, SUB, SUBN (43_alu R141). -/
def State.putRegThenFlag (s : State) (x : Reg) (b f : Byte) : State := ((s.setReg x b).setFlag f).advance

/-- `8xy0` LD Vx, Vy (R130). -/
def execLdReg (x y : Reg) (s : State) : Result := .next (s.putReg x (s.reg y))

/-- `8xy1` OR Vx, Vy (R131). -/
def execOrReg (x y : Reg) (s : State) : Result := .next (s.putReg x (s.reg x ||| s.reg y))

/-- `8xy2` AND Vx, Vy (R132). -/
def execAndReg (x y : Reg) (s : State) : Result := .next (s.putReg x (s.reg x &&& s.reg y))

/-- `8xy3` XOR Vx, Vy (R133). -/
def execXorReg (x y : Reg) (s : State) : Result := .next (s.putReg x (s.reg x ^^^ s.reg y))

/-- `8xy4` ADD Vx, Vy (R134). -/
def execAddReg (x y : Reg) (s : State) : Result :=
  .next (s.putRegThenFlag x (BitVec.ofNat 8 ((s.reg x).toNat + (s.reg y).toNat)) (carryFlag (s.reg x) (s.reg y)))

/-- `8xy5` SUB Vx, Vy (R135). -/
def execSubReg (x y : Reg) (s : State) : Result :=
  .next (s.putRegThenFlag x (s.reg x - s.reg y) (notBorrow (s.reg x) (s.reg y)))

/-- `8xy7` SUBN Vx, Vy (R137). -/
def execSubn (x y : Reg) (s : State) : Result :=
  .next (s.putRegThenFlag x (s.reg y - s.reg x) (notBorrow (s.reg y) (s.reg x)))

/-- `8xy6` SHR Vx (R136): the flag first, then the shift of the state that left (00_scope R18, log 13); `y` ignored. -/
def execShr (x _y : Reg) (s : State) : Result :=
  let t := s.setFlag (lowBit (s.reg x))
  .next (t.putReg x (t.reg x >>> 1))

/-- `8xyE` SHL Vx (R138): the flag first, then the shift of the state that left (00_scope R18, log 13); `y` ignored. -/
def execShl (x _y : Reg) (s : State) : Result :=
  let t := s.setFlag (highBit (s.reg x))
  .next (t.putReg x (t.reg x <<< 1))

/-- `8xyN`, any other low nibble (R139). -/
def execUnknown8 (_x _y : Reg) (_n : Nibble) (_s : State) : Result := raise .invalidOpcode

end Sys2Proof.Machine
end

