-- ==== Sys2Proof/Machine/Control.lean ====
section
/-! DEFINITION. Control flow (40_control_flow). -/

namespace Sys2Proof.Machine

/-- `0nnn` SYS: a no-operation (40_control_flow R102, log 27). -/
def execSys (_nnn : Addr12) (s : State) : Result := .next s.advance

/-- `00EE` RET (40_control_flow R103): the popped value as it is. -/
def execRet (s : State) : Result :=
  match s.pop with
  | .ok (w, t) => .next (t.setPc w)
  | .error f => raise f

/-- `1nnn` JP (40_control_flow R104). -/
def execJp (nnn : Addr12) (s : State) : Result := .next (s.setPc (addrWord nnn))

/-- `2nnn` CALL (40_control_flow R105). -/
def execCall (nnn : Addr12) (s : State) : Result :=
  match s.push (s.pc + 2) with
  | .ok t => .next (t.setPc (addrWord nnn))
  | .error f => raise f

/-- `Bnnn` JP V0 (40_control_flow R106): the sum is not reduced modulo 4096. -/
def execJpV0 (nnn : Addr12) (s : State) : Result :=
  .next (s.setPc ((s.reg 0).setWidth 16 + addrWord nnn))

end Sys2Proof.Machine
end

