-- ==== Sys2Proof/Machine/Draw.lean ====
section
/-! DEFINITION. Display instructions and the sprite collision detector (45_display). -/

namespace Sys2Proof.Machine

/-- `00E0` CLS (R160). -/
def execCls (s : State) : Result := .next (s.setDisp Display.clear).advance

/-- One bit of a sprite (R161): if it is set, note a collision and toggle the cell. -/
def drawBit (x0 y0 r : Nat) (b : Byte) (d : Display × Bool) (c : Nat) : Display × Bool :=
  if spriteBit b c then
    let cx := wrapCol (x0 + c)
    let cy := wrapRow (y0 + r)
    (Display.toggle d.1 cx cy, d.2 || Display.cell d.1 cx cy)
  else d

/-- The eight bits of sprite row `r`. -/
def drawRow (x0 y0 r : Nat) (b : Byte) (d : Display × Bool) : Display × Bool :=
  (List.range 8).foldl (drawBit x0 y0 r b) d

/-- Sprite rows from row `r` on (R161): the new display and whether any cell went from 1 to 0. -/
def drawRows (x0 y0 : Nat) : Nat → List Byte → Display × Bool → Display × Bool
  | _, [], d => d
  | r, b :: rest, d => drawRows x0 y0 (r + 1) rest (drawRow x0 y0 r b d)

/-- Whether a set bit of the rows from row `r` on has its target outside the 64 by 32 grid (R163). -/
def crossesEdge (x0 y0 : Nat) : Nat → List Byte → Bool
  | _, [] => false
  | r, b :: rest =>
    ((List.range 8).any fun c => spriteBit b c && (decide (x0 + c > 63) || decide (y0 + r > 31)))
      || crossesEdge x0 y0 (r + 1) rest

/-- `Dxyn` DRW Vx, Vy, n (R161 to R167): the operands are read first, the memory bound is checked before the edge
(60_exceptions R203), and `VF` is written once, last (R166, log 14). Both edge policies are modelled (log 2). -/
def execDrw (x y : Reg) (n : Nibble) (s : State) : Result :=
  let x0 := (s.reg x).toNat
  let y0 := (s.reg y).toNat
  match s.memRead (s.dataAddr 0) n.toNat with
  | .error f => raise f
  | .ok rows =>
    if crossesEdge x0 y0 0 rows && (s.cfg.drawEdge == .reject) then raise .outOfBounds
    else
      let d := drawRows x0 y0 0 rows (s.disp, false)
      .next ((s.setDisp d.1).setFlag (flagByte d.2)).advance

end Sys2Proof.Machine
end

