-- ==== Sys2Proof/Machine/Immediate.lean ====
section
/-! DEFINITION. Register-immediate instructions (42_register_immediate). -/

namespace Sys2Proof.Machine

/-- `6xkk` LD Vx, kk (R120). -/
def execLdImm (x : Reg) (kk : Byte) (s : State) : Result := .next (s.setReg x kk).advance

/-- `7xkk` ADD Vx, kk (R121): modulo 256, `VF` is no flag here. -/
def execAddImm (x : Reg) (kk : Byte) (s : State) : Result :=
  .next (s.setReg x (BitVec.ofNat 8 ((s.reg x).toNat + kk.toNat))).advance

/-- `Cxkk` RND Vx, kk (R122): the draw is the free value `Config.randomByte` at the count of earlier draws (log 1). -/
def execRnd (x : Reg) (kk : Byte) (s : State) : Result :=
  .next (s.setReg x (Config.randomByte s.draws &&& kk)).countDraw.advance

end Sys2Proof.Machine
end

