-- ==== Sys2Proof/Machine/IndexMemory.lean ====
section
/-! DEFINITION. The index register and memory load and store (44_index_memory). No access modifies `I` (R156, log 18). -/

namespace Sys2Proof.Machine

/-- `Annn` LD I, nnn (R150). -/
def execLdI (nnn : Addr12) (s : State) : Result := .next (s.setI (addrWord nnn)).advance

/-- `Fx1E` ADD I, Vx (R151): a wrapping 16-bit add, no flag (log 18). -/
def execAddIVx (x : Reg) (s : State) : Result :=
  .next (s.setI (BitVec.ofNat 16 (s.i.toNat + (s.reg x).toNat))).advance

/-- `Fx29` LD F, Vx (R152): the whole byte times 5 (log 18). -/
def execLdF (x : Reg) (s : State) : Result := .next (s.setI (BitVec.ofNat 16 ((s.reg x).toNat * 5))).advance

/-- Store bytes at `I` and advance, or raise `OutOfBounds` with nothing written: the shape of `Fx33` and `Fx55`. -/
def State.storeAtI (s : State) (bs : List Byte) : Result :=
  match s.memWrite (s.dataAddr 0) bs with
  | .ok t => .next t.advance
  | .error f => raise f

/-- `Fx33` LD B, Vx (R153). -/
def execLdB (x : Reg) (s : State) : Result := s.storeAtI (bcd (s.reg x))

/-- `Fx55` LD [I], Vx (R154). -/
def execLdIVx (x : Reg) (s : State) : Result := s.storeAtI (s.regsUpTo x)

/-- `Fx65` LD Vx, [I] (R155). -/
def execLdVxI (x : Reg) (s : State) : Result :=
  match s.memRead (s.dataAddr 0) (x.val + 1) with
  | .ok bs => .next (s.loadRegs 0 bs).advance
  | .error f => raise f

end Sys2Proof.Machine
end

