-- ==== Sys2Proof/Machine/Keyboard.lean ====
section
/-! DEFINITION. Keyboard instructions (46_keyboard): a query consumes the latch it reads (60_exceptions R214). -/

namespace Sys2Proof.Machine

/-- Query and consume the key that `V[x]` names (`KeyTake`, 00_scope R17), and skip when its latch was `want`; an
index above 15 raises `OutOfBounds` (R174, log 16). -/
def State.skipOnKey (s : State) (x : Reg) (want : Bool) : Result :=
  match keyOfByte (s.reg x) with
  | some k => .next ((s.setKey k false).skipIf (s.keyAt k == want))
  | none => raise .outOfBounds

/-- `Ex9E` SKP Vx (R170). -/
def execSkp (x : Reg) (s : State) : Result := s.skipOnKey x true

/-- `ExA1` SKNP Vx (R171). -/
def execSknp (x : Reg) (s : State) : Result := s.skipOnKey x false

/-- `Fx0A` LD Vx, K (R172): with no key latched nothing changes, `pc` included; else the least latched key is taken
(R175, log 17). -/
def execLdVxK (x : Reg) (s : State) : Result :=
  match s.leastKey with
  | some k => .next ((s.setReg x (BitVec.ofNat 8 k.val)).setKey k false).advance
  | none => .next s

/-- `Exkk`, any other low byte (R173). -/
def execUnknownE (_x : Reg) (_kk : Byte) (_s : State) : Result := raise .invalidOpcode

end Sys2Proof.Machine
end

