-- ==== Sys2Proof/Machine/Skips.lean ====
section
/-! DEFINITION. Conditional skips on register values (41_skips). -/

namespace Sys2Proof.Machine

/-- `3xkk` SE Vx, kk (41_skips R110). -/
def execSeImm (x : Reg) (kk : Byte) (s : State) : Result := .next (s.skipIf (s.reg x == kk))

/-- `4xkk` SNE Vx, kk (41_skips R111). -/
def execSneImm (x : Reg) (kk : Byte) (s : State) : Result := .next (s.skipIf (s.reg x != kk))

/-- `5xy0` SE Vx, Vy, whatever the low nibble (41_skips R112, 30_encoding R77, log 11). -/
def execSeReg (x y : Reg) (_n : Nibble) (s : State) : Result := .next (s.skipIf (s.reg x == s.reg y))

/-- `9xy0` SNE Vx, Vy, whatever the low nibble (41_skips R113, 30_encoding R77, log 11). -/
def execSneReg (x y : Reg) (_n : Nibble) (s : State) : Result := .next (s.skipIf (s.reg x != s.reg y))

end Sys2Proof.Machine
end

