-- ==== Sys2Proof/Machine/Timers.lean ====
section
/-! DEFINITION. Timer instructions and the rest of family F (47_timers). No step counts a timer down. -/

namespace Sys2Proof.Machine

/-- `Fx07` LD Vx, DT (R180). -/
def execLdVxDT (x : Reg) (s : State) : Result := .next (s.setReg x s.dt).advance

/-- `Fx15` LD DT, Vx (R181). -/
def execLdDTVx (x : Reg) (s : State) : Result := .next (s.setDT (s.reg x)).advance

/-- `Fx18` LD ST, Vx (R182). -/
def execLdSTVx (x : Reg) (s : State) : Result := .next (s.setST (s.reg x)).advance

/-- `Fxkk`, any other low byte (R183). -/
def execUnknownF (_x : Reg) (_kk : Byte) (_s : State) : Result := raise .invalidOpcode

end Sys2Proof.Machine
end

