-- ==== Sys2Proof/Machine/Step.lean ====
section
/-! DEFINITION. One step (40_control_flow R100), and how an instruction is placed where the next step fetches it. -/

namespace Sys2Proof.Machine

/-- `Step` (40_control_flow R100): fetch two bytes at `pc`, decode, execute. Host events are no part of a step; they
stand in Machine/HostEvents.lean (log 6). -/
def step (s : State) : Host.Outcome State Fault Refusal :=
  match fetch s with
  | .ok w => exec (decodeWord w) s
  | .error f => raise f

/-- Store an instruction, high byte first, where the next step fetches. A `pc` above 4094 fetches nothing, so it is
first set to 0x200, where `load_program` would set it (log 5). -/
def State.withFetchWord (s : State) (nbits w : Nat) : State := placeFetchWord s nbits w

end Sys2Proof.Machine
end

