-- ==== Sys2Proof/Machine/HostEvents.lean ====
section
/-! DEFINITION. The host interface as events (60_exceptions R209): reset and boot, the cycle sequencer, the key latch,
the timer unit and the read ports. An event is atomic and never lands inside a step or a tick (log 26). -/

namespace Sys2Proof.Machine

/-- The events of 60_exceptions R209. A key index has four bits there, so none is out of range (R213). -/
inductive HostEvent where
  | reset
  | loadProgram (bytes : List Byte)
  | tick (elapsedMs : Nat)
  | keyEvent (k : Reg) (pressed : Bool)
  | timerTick
  | readDisplay
  | snapshotRegisters
  deriving DecidableEq, Repr

/-- What `snapshot_registers` shows (60_exceptions R219). -/
structure Snapshot where
  v : Vector Byte 16
  i : Word
  pc : Word
  dt : Byte
  st : Byte
  sp : Fin 33
  deriving DecidableEq, Repr

/-- What an event returns to the host (60_exceptions R209). -/
inductive Reply where
  /-- Nothing to report. -/
  | ok
  /-- An error kind (R200). -/
  | error (f : Fault)
  /-- A step refused an instruction; no step does. -/
  | refused (r : Refusal)
  /-- The display's cells (R218). -/
  | display (cells : List Bool)
  /-- The registers (R219). -/
  | registers (r : Snapshot)
  deriving DecidableEq, Repr

/-- The state an event leaves, and what it returns. -/
structure EventResult where
  state : State
  reply : Reply
  deriving DecidableEq, Repr

/-- The numeric code of an error kind (60_exceptions R200, log 24). -/
def faultCode : Fault → Nat
  | .romTooLarge => 1
  | .stackOverflow => 2
  | .stackUnderflow => 3
  | .invalidOpcode => 4
  | .outOfBounds => 5

/-! ### Reset and boot (70_reset_and_hazards) -/

/-- The state after `reset` of a machine with parameters `c` (10_state R31, R250, R251): `FONT` at 0, all else 0. -/
def resetFor (c : Config) : State :=
  { State.reset with cfg := c, mem := Memory.writeList [] 0 c.font.toList }

/-- The `reset` event (R250). The count of draws goes on, so that no two draws are known to be one (log 1). -/
def hostReset (s : State) : State := { resetFor s.cfg with draws := s.draws }

/-- `load_program(bytes)` (R252, R253): only the program bytes and `pc` change (log 22). -/
def loadProgram (bytes : List Byte) (s : State) : EventResult :=
  if bytes.length > 3584 then ⟨s, .error .romTooLarge⟩
  else ⟨(s.setMem (s.mem.writeList 0x200 bytes)).setPc 0x200, .ok⟩

/-- The boot order of R254: `reset`, then `load_program`. -/
def launch (c : Config) (image : List Byte) : EventResult := loadProgram image (resetFor c)

/-! ### The cycle-gated sequencer (60_exceptions R210 to R212) -/

/-- The loop of `tick`, at most `n` times round: while a period is due, charge it, then step; an error ends the loop
with the period charged and the rest of `acc` kept (R212, log 21). -/
def sequencerLoop : Nat → State → EventResult
  | 0, s => ⟨s, .ok⟩
  | n + 1, s =>
    if s.acc < 1000 then ⟨s, .ok⟩
    else
      let charged := s.setAcc (s.acc - 1000)
      match step charged with
      | .next t => sequencerLoop n t
      | .fault f => ⟨charged, .error f⟩
      | .refused r => ⟨charged, .refused r⟩

/-- `tick(e)` (R210): the loop may go round once for each period then in `acc`, which is as often as it can. -/
def tick (elapsedMs : Nat) (s : State) : EventResult :=
  let t := s.setAcc (s.acc + elapsedMs * s.cfg.clockHz)
  sequencerLoop (t.acc / 1000) t

/-! ### Keys, timers, read ports -/

/-- A timer's next value: 0 stays 0, all else counts down by 1 (60_exceptions R215, log 19). -/
def countDown (b : Byte) : Byte := if b = 0 then 0 else b - 1

/-- `timer_tick` (60_exceptions R215): both timers count down. -/
def timerTick (s : State) : State :=
  (s.setDT (countDown s.dt)).setST (countDown s.st)

/-- The cells in the order `read_display` delivers them: cell `cy * 64 + cx` (60_exceptions R218, log 23). -/
def displayCells (s : State) : List Bool := s.disp.toList.flatMap fun row => row.toList

/-- What `snapshot_registers` shows (60_exceptions R219). -/
def snapshot (s : State) : Snapshot :=
  { v := s.v, i := s.i, pc := s.pc, dt := s.dt, st := s.st, sp := s.sp }

/-- One host event (60_exceptions R209). -/
def hostEvent (e : HostEvent) (s : State) : EventResult :=
  match e with
  | .reset => ⟨hostReset s, .ok⟩
  | .loadProgram bytes => loadProgram bytes s
  | .tick elapsedMs => tick elapsedMs s
  | .keyEvent k pressed => ⟨s.setKey k pressed, .ok⟩
  | .timerTick => ⟨timerTick s, .ok⟩
  | .readDisplay => ⟨s, .display (displayCells s)⟩
  | .snapshotRegisters => ⟨s, .registers (snapshot s)⟩

/-- A run of the machine: a sequence of events, each applied to the state the one before left (60_exceptions R209). -/
def runEvents : List HostEvent → State → State
  | [], s => s
  | e :: es, s => runEvents es (hostEvent e s).state

end Sys2Proof.Machine
end

