-- ==== Sys2Proof/Safety.lean ====
section
/-! DEFINITION. The terms claims are stated in: what an instruction may write, when it raises, which cells a sprite
targets, and the invariant of every run. Each is written from the spec's tables, not from the meanings. -/

namespace Sys2Proof.Machine

/-! ### Frames (10_state R31, columns 'written by') -/

/-- What may change in a step besides `pc`. Nothing else may, and `acc` and `cfg` never do (10_state R29, R30). -/
structure Writes where
  regs : Reg → Prop := fun _ => False
  i : Prop := False
  mem : Nat → Prop := fun _ => False
  stack : Prop := False
  disp : Prop := False
  key : Reg → Prop := fun _ => False
  dt : Prop := False
  st : Prop := False
  draws : Prop := False

/-- From `s` to `t` nothing changed but what `w` allows, and `pc`. -/
def Keeps (w : Writes) (s t : State) : Prop :=
  (∀ r, ¬ w.regs r → t.reg r = s.reg r) ∧ (¬ w.i → t.i = s.i) ∧
  (∀ a, ¬ w.mem a → t.byteAt a = s.byteAt a) ∧
  (¬ w.stack → t.stack = s.stack ∧ t.sp = s.sp) ∧
  (¬ w.disp → ∀ cx cy, t.pixel cx cy = s.pixel cx cy) ∧
  (∀ k, ¬ w.key k → t.keyAt k = s.keyAt k) ∧
  (¬ w.dt → t.dt = s.dt) ∧ (¬ w.st → t.st = s.st) ∧ (¬ w.draws → t.draws = s.draws) ∧
  t.acc = s.acc ∧ t.cfg = s.cfg

/-- What the spec lets each instruction write (10_state R21 to R28 and the table of R31; memory: 44_index_memory
R153, R154, from the address `I`). -/
def writesOf : Instr → State → Writes
  | .cls, _ => { disp := True }
  | .ret, _ => { stack := True }
  | .sys _, _ => {}
  | .jp _, _ => {}
  | .call _, _ => { stack := True }
  | .seImm _ _, _ => {}
  | .sneImm _ _, _ => {}
  | .seReg _ _ _, _ => {}
  | .ldImm x _, _ => { regs := fun r => r = x }
  | .addImm x _, _ => { regs := fun r => r = x }
  | .ldReg x _, _ => { regs := fun r => r = x }
  | .orReg x _, _ => { regs := fun r => r = x }
  | .andReg x _, _ => { regs := fun r => r = x }
  | .xorReg x _, _ => { regs := fun r => r = x }
  | .addReg x _, _ => { regs := fun r => r = x ∨ r = vf }
  | .subReg x _, _ => { regs := fun r => r = x ∨ r = vf }
  | .shr x _, _ => { regs := fun r => r = x ∨ r = vf }
  | .subn x _, _ => { regs := fun r => r = x ∨ r = vf }
  | .shl x _, _ => { regs := fun r => r = x ∨ r = vf }
  | .unknown8 _ _ _, _ => {}
  | .sneReg _ _ _, _ => {}
  | .ldI _, _ => { i := True }
  | .jpV0 _, _ => {}
  | .rnd x _, _ => { regs := fun r => r = x, draws := True }
  | .drw _ _ _, _ => { regs := fun r => r = vf, disp := True }
  | .skp x, s => { key := fun k => k.val = (s.reg x).toNat }
  | .sknp x, s => { key := fun k => k.val = (s.reg x).toNat }
  | .unknownE _ _, _ => {}
  | .ldVxDT x, _ => { regs := fun r => r = x }
  | .ldVxK x, s => { regs := fun r => r = x, key := fun k => s.keyAt k = true }
  | .ldDTVx _, _ => { dt := True }
  | .ldSTVx _, _ => { st := True }
  | .addIVx _, _ => { i := True }
  | .ldF _, _ => { i := True }
  | .ldB _, s => { mem := fun a => s.dataAddr 0 ≤ a ∧ a < s.dataAddr 3 }
  | .ldIVx x, s => { mem := fun a => s.dataAddr 0 ≤ a ∧ a ≤ s.dataAddr x.val }
  | .ldVxI x, _ => { regs := fun r => r ≤ x }
  | .unknownF _ _, _ => {}

/-! ### Sprites (45_display) -/

/-- Row `r`, column `c` of the `n`-row sprite at `I` is a set bit (45_display R161, R164). -/
def SpriteSet (s : State) (n r c : Nat) : Prop :=
  r < n ∧ c < 8 ∧ spriteBit (s.byteAt (s.dataAddr r)) c = true

/-- Some set bit of the sprite drawn at (`V[x]`, `V[y]`) targets the cell (`cx`, `cy`) (45_display R161, R162). -/
def SpriteTargets (s : State) (x y : Reg) (n : Nibble) (cx : Fin 64) (cy : Fin 32) : Prop :=
  ∃ r c, SpriteSet s n.toNat r c ∧ cx.val = ((s.reg x).toNat + c) % 64 ∧ cy.val = ((s.reg y).toNat + r) % 32

/-- Some set bit of the sprite has its target outside the grid (45_display R163). -/
def SpriteLeavesGrid (s : State) (x y : Reg) (n : Nibble) : Prop :=
  ∃ r c, SpriteSet s n.toNat r c ∧ ((s.reg x).toNat + c > 63 ∨ (s.reg y).toNat + r > 31)

/-- The sprite's rows lie in memory (45_display R161). -/
def SpriteReadable (s : State) (n : Nibble) : Prop := n.toNat = 0 ∨ s.i.toNat + n.toNat - 1 ≤ 4095

/-- The draw is not rejected at the edge (45_display R162, R163): always so under `wrap`. -/
def SpriteAllowed (s : State) (x y : Reg) (n : Nibble) : Prop :=
  s.cfg.drawEdge = .wrap ∨ ¬ SpriteLeavesGrid s x y n

/-! ### Errors (60_exceptions R200, R202) -/

/-- When a fetched instruction raises, and what (60_exceptions R200); every instruction not in that table raises
nothing (R202). -/
def Raises : Instr → State → Fault → Prop
  | .call _, s, f => s.sp.val = 32 ∧ f = .stackOverflow
  | .ret, s, f => s.sp.val = 0 ∧ f = .stackUnderflow
  | .unknown8 _ _ _, _, f => f = .invalidOpcode
  | .unknownE _ _, _, f => f = .invalidOpcode
  | .unknownF _ _, _, f => f = .invalidOpcode
  | .ldB _, s, f => s.i.toNat + 2 > 4095 ∧ f = .outOfBounds
  | .ldIVx x, s, f => s.i.toNat + x.val > 4095 ∧ f = .outOfBounds
  | .ldVxI x, s, f => s.i.toNat + x.val > 4095 ∧ f = .outOfBounds
  | .drw x y n, s, f => (¬ SpriteReadable s n ∨ ¬ SpriteAllowed s x y n) ∧ f = .outOfBounds
  | .skp x, s, f => (s.reg x).toNat > 15 ∧ f = .outOfBounds
  | .sknp x, s, f => (s.reg x).toNat > 15 ∧ f = .outOfBounds
  | .cls, _, _ | .sys _, _, _ | .jp _, _, _ | .seImm _ _, _, _ | .sneImm _ _, _, _ | .seReg _ _ _, _, _
  | .ldImm _ _, _, _ | .addImm _ _, _, _ | .ldReg _ _, _, _ | .orReg _ _, _, _ | .andReg _ _, _, _
  | .xorReg _ _, _, _ | .addReg _ _, _, _ | .subReg _ _, _, _ | .shr _ _, _, _ | .subn _ _, _, _
  | .shl _ _, _, _ | .sneReg _ _ _, _, _ | .ldI _, _, _ | .jpV0 _, _, _ | .rnd _ _, _, _ | .ldVxDT _, _, _
  | .ldVxK _, _, _ | .ldDTVx _, _, _ | .ldSTVx _, _, _ | .addIVx _, _, _ | .ldF _, _, _ => False

/-! ### Runs -/

/-- The invariant of every run: memory in its canonical form; `pc` at most 0x10FE (10_state R23); every stack cell at
most 4096 (10_state R25); a positive clock rate (00_scope R6). -/
def State.Inv (s : State) : Prop :=
  s.mem.wf = true ∧ s.pc.toNat ≤ 0x10FE ∧ (∀ j, (s.stack.get j).toNat ≤ 0x1000) ∧ s.cfg.wf = true

/-- The events that neither reset the machine nor load a program. -/
def HostEvent.keepsProgram : HostEvent → Bool
  | .reset => false
  | .loadProgram _ => false
  | .tick _ | .keyEvent _ _ | .timerTick | .readDisplay | .snapshotRegisters => true

/-- A result with its next state, if any, changed by `g`. -/
def mapNext (g : State → State) : Result → Result
  | .next t => .next (g t)
  | .fault f => .fault f
  | .refused r => .refused r

end Sys2Proof.Machine
end

