-- ==== Sys2Proof/Certificates/Slice0/Obligations.lean ====
section
/-! DEFINITION. The statements about the model, from the numbered rules of spec/. Unless a statement says otherwise it is
about every state and every operand. `Keeps w s t` is the frame: from `s` to `t` nothing changed but `pc` and what `w`
lists (Safety.lean). -/

open Sys2Proof Sys2Proof.Machine

/-! ### Encoding -/

/-- For every well-formed instruction, decoding its word gives it back (30_encoding R71, R83 [derived]; ignored nibbles are
fields, log 11). -/
def Obligations.DecodeEncodeRoundTrip : Prop :=
  ∀ i : Instr, i.wf = true → decodeWord (encode i) = i

/-- For every one of the 65536 words, the decoder gives a well-formed instruction whose encoding is that word: no bit is
dropped (30_encoding R74; ignored nibbles are kept as fields, log 11). -/
def Obligations.EncodeDecodeRoundTrip : Prop :=
  ∀ w : Word, (decodeWord w).wf = true ∧ encode (decodeWord w) = w

/-- The decoder selects the first row of the opcode map that the word matches (30_encoding R75; the nibbles of family 8
are recovered in R76, log 12). -/
def Obligations.DecoderIsFirstMatch : Prop :=
  ∀ w : Word, firstMatch w = some (decodeWord w).rowOrder

/-- The worked decode examples of 30_encoding R84, and `0x8104` of R83 [both derived, from R71 and R75]; the low nibble of `0x5AB7` is ignored by the spec's decision
D13 (log 11), and family 8 is assigned by D12 (log 12). -/
def Obligations.WorkedDecodeExamples : Prop :=
  decodeWord 0xD125 = .drw 1 2 5 ∧ decodeWord 0x00E0 = .cls ∧ decodeWord 0x00E1 = .sys 0x0E1 ∧
  decodeWord 0x0000 = .sys 0 ∧ decodeWord 0x5AB7 = .seReg 0xA 0xB 7 ∧ decodeWord 0x8AB8 = .unknown8 0xA 0xB 8 ∧
  decodeWord 0xE19F = .unknownE 1 0x9F ∧ decodeWord 0xF090 = .unknownF 0 0x90 ∧ decodeWord 0xFF65 = .ldVxI 0xF ∧
  decodeWord 0x8104 = .addReg 1 0

/-! ### The step -/

/-- With both bytes of the instruction in memory, a step is `exec` of the instruction that the big-endian word at `pc`
decodes to, at the same state (40_control_flow R100, 20_memory R53). The bound is the spec's decision D4 (log 8). -/
def Obligations.StepRunsDecodedInstruction : Prop :=
  ∀ s : State, s.pc.toNat ≤ 4094 →
    ∀ w : Word, w.toNat = (s.byteAt s.pc.toNat).toNat * 256 + (s.byteAt (s.pc.toNat + 1)).toNat →
      step s = exec (decodeWord w) s

/-- The fetch raises `OutOfBounds` when `pc > 4094`, whatever memory holds (40_control_flow R100; the spec's decision D4,
log 8). -/
def Obligations.FetchPastMemoryFaults : Prop :=
  ∀ s : State, 4094 < s.pc.toNat → step s = .fault .outOfBounds

/-- A step ends in a next state or in one of the four step errors: it never refuses and never reports `RomTooLarge`
(60_exceptions R200, R202; 70_reset_and_hazards R253). -/
def Obligations.StepEndsAsSpecified : Prop :=
  ∀ s : State, (∃ t, step s = .next t) ∨ step s = .fault .stackOverflow ∨ step s = .fault .stackUnderflow ∨
    step s = .fault .invalidOpcode ∨ step s = .fault .outOfBounds

/-- Every instruction raises exactly the errors of the table of 60_exceptions R200, exactly when that table says
(`Raises`), and none otherwise (R202 [derived]). The memory bound, the edge and the key bound in that table are the spec's
decisions D5, D6, D14 (log 2, 9, 16). -/
def Obligations.InstructionRaisesExactly : Prop :=
  ∀ (i : Instr) (s : State) (f : Fault), exec i s = .fault f ↔ Raises i s f

/-- Every instruction completes in every state in which the table of 60_exceptions R200 names no error for it: for all
38 constructors (the three UNKNOWN rows raise in every state). The bounds in that table are the spec's decisions D5, D6,
D14 (log 2, 9, 16). -/
def Obligations.InstructionCompletesUnlessItRaises : Prop :=
  ∀ (i : Instr) (s : State), (∀ f, ¬ Raises i s f) → ∃ t, exec i s = .next t

/-- No instruction changes anything but `pc` and what the spec's 'written by' columns give it (10_state R31's table;
`writesOf`): registers, `I`, memory bytes, stack, display cells, key cells, timers, and never `acc` or a parameter. That
logic writes no `VF` and an access leaves `I` are the spec's decisions D12, D16 (log 12, 18); `draws` is the model's own
(log 1). -/
def Obligations.InstructionWritesOnlyItsOwn : Prop :=
  ∀ (i : Instr) (s t : State), exec i s = .next t → Keeps (writesOf i s) s t

/-- Default advance (40_control_flow R101): after a successful step `pc` is `p + 2`, or `p + 4` for a skip form, but for
`JP`, `CALL`, `RET`, `JP V0` and `LD Vx, K`, which may also leave the state as it is. -/
def Obligations.DefaultAdvanceOfPc : Prop :=
  ∀ (i : Instr) (s t : State), exec i s = .next t →
    match i with
    | .jp _ | .call _ | .ret | .jpV0 _ => True
    | .ldVxK _ => t.pc = s.pc + 2 ∨ t = s
    | .seImm _ _ | .sneImm _ _ | .seReg _ _ _ | .sneReg _ _ _ | .skp _ | .sknp _ => t.pc = s.pc + 2 ∨ t.pc = s.pc + 4
    | _ => t.pc = s.pc + 2

/-- An instruction of the three UNKNOWN rows raises `InvalidOpcode` in every state, and so does a step that fetches a word
of them (43_alu R139, 46_keyboard R173, 47_timers R183). -/
def Obligations.UnknownWordsRaiseInvalidOpcode : Prop :=
  (∀ (x y : Reg) (n : Nibble) (s : State), exec (.unknown8 x y n) s = .fault .invalidOpcode) ∧
  (∀ (x : Reg) (kk : Byte) (s : State), exec (.unknownE x kk) s = .fault .invalidOpcode) ∧
  (∀ (x : Reg) (kk : Byte) (s : State), exec (.unknownF x kk) s = .fault .invalidOpcode) ∧
  (∀ (s : State) (w : Word), fetch s = .ok w →
    (fieldFam w = 8 ∧ fieldN w ∈ [8, 9, 0xA, 0xB, 0xC, 0xD, 0xF] ∨
     fieldFam w = 0xE ∧ fieldKK w ∉ [0x9E, 0xA1] ∨
     fieldFam w = 0xF ∧ fieldKK w ∉ [0x07, 0x0A, 0x15, 0x18, 0x1E, 0x29, 0x33, 0x55, 0x65]) →
    step s = .fault .invalidOpcode)

/-! ### Control flow -/

/-- `SYS nnn` only advances `pc` (40_control_flow R102): the spec's resolution C3 of its source's contradiction (90_conflicts,
log 27). -/
def Obligations.SysOnlyAdvances : Prop :=
  ∀ (nnn : Addr12) (s : State), ∃ t, exec (.sys nnn) s = .next t ∧ Keeps {} s t ∧ t.pc = s.pc + 2

/-- `RET` (40_control_flow R103): with `sp = 0` it raises `StackUnderflow`; else it pops, the cells unchanged, and `pc` is
the popped value as it is. -/
def Obligations.RetResult : Prop :=
  ∀ s : State, (s.sp.val = 0 → exec .ret s = .fault .stackUnderflow) ∧
    ∀ j : Fin 32, s.sp.val = j.val + 1 → ∃ t, exec .ret s = .next t ∧ Keeps { stack := True } s t ∧
      t.sp.val = j.val ∧ t.stack = s.stack ∧ t.pc = s.stack.get j

/-- `JP nnn` (40_control_flow R104). -/
def Obligations.JpResult : Prop :=
  ∀ (nnn : Addr12) (s : State), ∃ t, exec (.jp nnn) s = .next t ∧ Keeps {} s t ∧ t.pc.toNat = nnn.toNat

/-- `CALL nnn` (40_control_flow R105): with `sp = 32` it raises `StackOverflow`; else it pushes `pc + 2`, the other cells
unchanged, and jumps. -/
def Obligations.CallResult : Prop :=
  ∀ (nnn : Addr12) (s : State), (s.sp.val = 32 → exec (.call nnn) s = .fault .stackOverflow) ∧
    ∀ j : Fin 32, s.sp.val = j.val → ∃ t, exec (.call nnn) s = .next t ∧ Keeps { stack := True } s t ∧
      t.sp.val = j.val + 1 ∧ t.stack.get j = s.pc + 2 ∧ (∀ k, k ≠ j → t.stack.get k = s.stack.get k) ∧
      t.pc.toNat = nnn.toNat

/-- `JP V0, nnn` (40_control_flow R106): the exact sum, not reduced modulo 4096. -/
def Obligations.JpV0Result : Prop :=
  ∀ (nnn : Addr12) (s : State), ∃ t, exec (.jpV0 nnn) s = .next t ∧ Keeps {} s t ∧
    t.pc.toNat = (s.reg 0).toNat + nnn.toNat

/-- A `RET` at any later state with the stack as the `CALL` left it goes to the instruction after the `CALL`, at the depth
before it (40_control_flow R103, R105). -/
def Obligations.RetReturnsAfterCall : Prop :=
  ∀ (nnn : Addr12) (s t u : State), exec (.call nnn) s = .next t → u.stack = t.stack → u.sp = t.sp →
    ∃ r, exec .ret u = .next r ∧ r.pc = s.pc + 2 ∧ r.sp = s.sp

/-- A jump to its own address leaves the whole state as it is (70_reset_and_hazards R263; the spec's convention for the
end of a run, D24). -/
def Obligations.SelfJumpChangesNothing : Prop :=
  ∀ (nnn : Addr12) (s : State), s.pc.toNat = nnn.toNat → fetch s = .ok (encode (.jp nnn)) → step s = .next s

/-! ### Skips -/

/-- `SE Vx, kk` and `SNE Vx, kk` (41_skips R110, R111): unsigned equality, no register written. -/
def Obligations.ImmediateSkipResults : Prop :=
  ∀ (x : Reg) (kk : Byte) (s : State),
    (∃ t, exec (.seImm x kk) s = .next t ∧ Keeps {} s t ∧
      t.pc = if (s.reg x).toNat = kk.toNat then s.pc + 4 else s.pc + 2) ∧
    (∃ t, exec (.sneImm x kk) s = .next t ∧ Keeps {} s t ∧
      t.pc = if (s.reg x).toNat ≠ kk.toNat then s.pc + 4 else s.pc + 2)

/-- `SE Vx, Vy` and `SNE Vx, Vy` (41_skips R112, R113) at every low nibble, which is ignored (30_encoding R77, the spec's
decision D13, log 11). -/
def Obligations.RegisterSkipResults : Prop :=
  ∀ (x y : Reg) (n : Nibble) (s : State),
    (∃ t, exec (.seReg x y n) s = .next t ∧ Keeps {} s t ∧
      t.pc = if (s.reg x).toNat = (s.reg y).toNat then s.pc + 4 else s.pc + 2) ∧
    (∃ t, exec (.sneReg x y n) s = .next t ∧ Keeps {} s t ∧
      t.pc = if (s.reg x).toNat ≠ (s.reg y).toNat then s.pc + 4 else s.pc + 2)

/-! ### Register-immediate -/

/-- `LD Vx, kk` (42_register_immediate R120), `x = 0xF` included. -/
def Obligations.LdImmResult : Prop :=
  ∀ (x : Reg) (kk : Byte) (s : State), ∃ t, exec (.ldImm x kk) s = .next t ∧
    Keeps { regs := fun r => r = x } s t ∧ t.reg x = kk ∧ t.pc = s.pc + 2

/-- `ADD Vx, kk` (42_register_immediate R121): modulo 256, `VF` unchanged unless it is the destination. -/
def Obligations.AddImmResult : Prop :=
  ∀ (x : Reg) (kk : Byte) (s : State), ∃ t, exec (.addImm x kk) s = .next t ∧
    Keeps { regs := fun r => r = x } s t ∧ (t.reg x).toNat = ((s.reg x).toNat + kk.toNat) % 256 ∧
    (x ≠ vf → t.reg vf = s.reg vf) ∧ t.pc = s.pc + 2

/-- `RND Vx, kk` (42_register_immediate R122): the free draw masked with `kk`; the next draw is another one (log 1, the
model's own counter). It holds for every value of the draw. -/
def Obligations.RndResult : Prop :=
  ∀ (x : Reg) (kk : Byte) (s : State), ∃ t, exec (.rnd x kk) s = .next t ∧
    Keeps { regs := fun r => r = x, draws := True } s t ∧ t.reg x = (Config.randomByte s.draws &&& kk) ∧
    t.draws = s.draws + 1 ∧ t.pc = s.pc + 2

/-! ### ALU -/

/-- `8xy0` to `8xy3` (43_alu R130 to R133): copy, or, and, xor into `V[x]`; `VF` is not written as a side effect (the
spec's decision D12 and its general knowledge G1, log 12). -/
def Obligations.CopyAndLogicResults : Prop :=
  ∀ (x y : Reg) (s : State),
    (∃ t, exec (.ldReg x y) s = .next t ∧ Keeps { regs := fun r => r = x } s t ∧
      t.reg x = s.reg y ∧ t.pc = s.pc + 2) ∧
    (∃ t, exec (.orReg x y) s = .next t ∧ Keeps { regs := fun r => r = x } s t ∧
      t.reg x = (s.reg x ||| s.reg y) ∧ t.pc = s.pc + 2) ∧
    (∃ t, exec (.andReg x y) s = .next t ∧ Keeps { regs := fun r => r = x } s t ∧
      t.reg x = (s.reg x &&& s.reg y) ∧ t.pc = s.pc + 2) ∧
    (∃ t, exec (.xorReg x y) s = .next t ∧ Keeps { regs := fun r => r = x } s t ∧
      t.reg x = (s.reg x ^^^ s.reg y) ∧ t.pc = s.pc + 2)

/-- `ADD Vx, Vy` (43_alu R134): the carry is written last, so it survives in `VF` when `x = 0xF`. -/
def Obligations.AddRegResult : Prop :=
  ∀ (x y : Reg) (s : State), ∃ t, exec (.addReg x y) s = .next t ∧
    Keeps { regs := fun r => r = x ∨ r = vf } s t ∧
    (x ≠ vf → (t.reg x).toNat = ((s.reg x).toNat + (s.reg y).toNat) % 256) ∧
    (t.reg vf).toNat = (if (s.reg x).toNat + (s.reg y).toNat > 255 then 1 else 0) ∧ t.pc = s.pc + 2

/-- `SUB Vx, Vy` and `SUBN Vx, Vy` (43_alu R135, R137): `VF` is 1 when no borrow occurs, and is written last. -/
def Obligations.SubtractResults : Prop :=
  ∀ (x y : Reg) (s : State),
    (∃ t, exec (.subReg x y) s = .next t ∧ Keeps { regs := fun r => r = x ∨ r = vf } s t ∧
      (x ≠ vf → ((t.reg x).toNat : Int) = (((s.reg x).toNat : Int) - (s.reg y).toNat) % 256) ∧
      (t.reg vf).toNat = (if (s.reg x).toNat ≥ (s.reg y).toNat then 1 else 0) ∧ t.pc = s.pc + 2) ∧
    (∃ t, exec (.subn x y) s = .next t ∧ Keeps { regs := fun r => r = x ∨ r = vf } s t ∧
      (x ≠ vf → ((t.reg x).toNat : Int) = (((s.reg y).toNat : Int) - (s.reg x).toNat) % 256) ∧
      (t.reg vf).toNat = (if (s.reg y).toNat ≥ (s.reg x).toNat then 1 else 0) ∧ t.pc = s.pc + 2)

/-- `SHR Vx` and `SHL Vx` (43_alu R136, R138) at every `y`, which is ignored: the flag is written first, and for
`x = 0xF` the shift reads the flag just written (the spec's decision D11, log 13). -/
def Obligations.ShiftResults : Prop :=
  ∀ (x y : Reg) (s : State),
    (∃ t, exec (.shr x y) s = .next t ∧ Keeps { regs := fun r => r = x ∨ r = vf } s t ∧
      (x ≠ vf → (t.reg x).toNat = (s.reg x).toNat / 2 ∧ (t.reg vf).toNat = (s.reg x).toNat % 2) ∧
      (x = vf → (t.reg vf).toNat = 0) ∧ t.pc = s.pc + 2) ∧
    (∃ t, exec (.shl x y) s = .next t ∧ Keeps { regs := fun r => r = x ∨ r = vf } s t ∧
      (x ≠ vf → (t.reg x).toNat = 2 * (s.reg x).toNat % 256 ∧ (t.reg vf).toNat = (s.reg x).toNat / 128) ∧
      (x = vf → (t.reg vf).toNat = 2 * ((s.reg x).toNat / 128)) ∧ t.pc = s.pc + 2)

/-- The identities of 43_alu R140 [derived], for `x ≠ 0xF`: nothing of the exact result is lost between `V[x]` and `VF`. -/
def Obligations.ArithmeticLosesNothing : Prop :=
  ∀ (x y : Reg) (s t : State), x ≠ vf →
    (exec (.addReg x y) s = .next t →
      (t.reg x).toNat + 256 * (t.reg vf).toNat = (s.reg x).toNat + (s.reg y).toNat) ∧
    (exec (.subReg x y) s = .next t →
      (t.reg x).toNat + (s.reg y).toNat + 256 * (t.reg vf).toNat = (s.reg x).toNat + 256) ∧
    (exec (.subn x y) s = .next t →
      (t.reg x).toNat + (s.reg x).toNat + 256 * (t.reg vf).toNat = (s.reg y).toNat + 256) ∧
    (exec (.shr x y) s = .next t → 2 * (t.reg x).toNat + (t.reg vf).toNat = (s.reg x).toNat) ∧
    (exec (.shl x y) s = .next t → (t.reg x).toNat + 256 * (t.reg vf).toNat = 2 * (s.reg x).toNat)

/-! ### Index register and memory -/

/-- `LD I, nnn` (44_index_memory R150). -/
def Obligations.LdIResult : Prop :=
  ∀ (nnn : Addr12) (s : State), ∃ t, exec (.ldI nnn) s = .next t ∧ Keeps { i := True } s t ∧
    t.i.toNat = nnn.toNat ∧ t.pc = s.pc + 2

/-- `ADD I, Vx` and `LD F, Vx` (44_index_memory R151, R152): a wrapping 16-bit add with no flag, and five times the whole
byte (the spec's decision D16, log 18). -/
def Obligations.IndexArithmeticResults : Prop :=
  ∀ (x : Reg) (s : State),
    (∃ t, exec (.addIVx x) s = .next t ∧ Keeps { i := True } s t ∧
      t.i.toNat = (s.i.toNat + (s.reg x).toNat) % 65536 ∧ t.pc = s.pc + 2) ∧
    (∃ t, exec (.ldF x) s = .next t ∧ Keeps { i := True } s t ∧
      t.i.toNat = (s.reg x).toNat * 5 ∧ t.pc = s.pc + 2)

/-- `LD B, Vx` (44_index_memory R153): past address 4095 it raises `OutOfBounds`; else the three digits land at `I`,
`I + 1`, `I + 2` and no other byte changes. Memory is taken in its canonical form, which every step keeps. -/
def Obligations.BcdStoreResult : Prop :=
  ∀ (x : Reg) (s : State), (s.i.toNat + 2 > 4095 → exec (.ldB x) s = .fault .outOfBounds) ∧
    (s.i.toNat + 2 ≤ 4095 → s.mem.wf = true → ∃ t, exec (.ldB x) s = .next t ∧
      Keeps { mem := fun a => s.dataAddr 0 ≤ a ∧ a < s.dataAddr 3 } s t ∧
      (t.byteAt (s.dataAddr 0)).toNat = (s.reg x).toNat / 100 ∧
      (t.byteAt (s.dataAddr 1)).toNat = (s.reg x).toNat / 10 % 10 ∧
      (t.byteAt (s.dataAddr 2)).toNat = (s.reg x).toNat % 10 ∧ t.pc = s.pc + 2)

/-- `LD [I], Vx` (44_index_memory R154): past address 4095 it raises `OutOfBounds`; else `V[k]` lands at `I + k` for each
`k` up to `x`, no other byte changes, and `I` stays (the spec's decision D16, log 18). Memory is taken in its canonical
form, which every step keeps. -/
def Obligations.RegisterStoreResult : Prop :=
  ∀ (x : Reg) (s : State), (s.i.toNat + x.val > 4095 → exec (.ldIVx x) s = .fault .outOfBounds) ∧
    (s.i.toNat + x.val ≤ 4095 → s.mem.wf = true → ∃ t, exec (.ldIVx x) s = .next t ∧
      Keeps { mem := fun a => s.dataAddr 0 ≤ a ∧ a ≤ s.dataAddr x.val } s t ∧
      (∀ k, k ≤ x → t.byteAt (s.dataAddr k.val) = s.reg k) ∧ t.pc = s.pc + 2)

/-- `LD Vx, [I]` (44_index_memory R155): past address 4095 it raises `OutOfBounds`; else `V[k]` is the byte at `I + k` for
each `k` up to `x`, and the registers above, memory and `I` stay (the spec's decision D16, log 18). -/
def Obligations.RegisterLoadResult : Prop :=
  ∀ (x : Reg) (s : State), (s.i.toNat + x.val > 4095 → exec (.ldVxI x) s = .fault .outOfBounds) ∧
    (s.i.toNat + x.val ≤ 4095 → ∃ t, exec (.ldVxI x) s = .next t ∧
      Keeps { regs := fun r => r ≤ x } s t ∧ (∀ k, k ≤ x → t.reg k = s.byteAt (s.dataAddr k.val)) ∧ t.pc = s.pc + 2)

/-- A register store and a later load from the same memory and `I` give the registers back (20_memory R58,
44_index_memory R154, R155). -/
def Obligations.StoreThenLoadGivesBack : Prop :=
  ∀ (x : Reg) (s t u : State), s.mem.wf = true → exec (.ldIVx x) s = .next t → u.mem = t.mem → u.i = t.i →
    ∃ r, exec (.ldVxI x) u = .next r ∧ ∀ k, k ≤ x → r.reg k = s.reg k

/-- A store over the next instruction is what the next step fetches, `V[0]` as the high byte (20_memory R53, R60; the
spec's decision D2, log 10). -/
def Obligations.StoreIsSeenByNextFetch : Prop :=
  ∀ (x : Reg) (s t : State), s.mem.wf = true → exec (.ldIVx x) s = .next t → 1 ≤ x.val →
    s.i.toNat = s.pc.toNat + 2 → step t = exec (decodeWord (s.reg 0 ++ s.reg 1)) t

/-! ### Display -/

/-- `CLS` (45_display R160): every cell 0, `VF` not written. -/
def Obligations.ClsResult : Prop :=
  ∀ s : State, ∃ t, exec .cls s = .next t ∧ Keeps { disp := True } s t ∧ (∀ cx cy, t.pixel cx cy = false) ∧
    t.pc = s.pc + 2

/-- `DRW Vx, Vy, n` combinationally (45_display R161, R162, R164 to R167 [derived]): with its rows in memory and no
rejection at the edge, each targeted cell is inverted, the others stay, and `VF` is 1 exactly when a targeted cell was 1
before. `V[x]`, `V[y]`, `I` are those before the draw. The bit order, wrapping and latching are the spec's decisions D6,
D7, D9 (log 2, 14, 15); `n = 0` is D8. -/
def Obligations.DrwResult : Prop :=
  ∀ (x y : Reg) (n : Nibble) (s : State), SpriteReadable s n → SpriteAllowed s x y n →
    ∃ t, exec (.drw x y n) s = .next t ∧ Keeps { regs := fun r => r = vf, disp := True } s t ∧
      (∀ cx cy, SpriteTargets s x y n cx cy → t.pixel cx cy = !s.pixel cx cy) ∧
      (∀ cx cy, ¬ SpriteTargets s x y n cx cy → t.pixel cx cy = s.pixel cx cy) ∧
      ((∃ cx cy, SpriteTargets s x y n cx cy ∧ s.pixel cx cy = true) → t.reg vf = 1) ∧
      ((¬ ∃ cx cy, SpriteTargets s x y n cx cy ∧ s.pixel cx cy = true) → t.reg vf = 0) ∧
      t.pc = s.pc + 2

/-- `DRW` raises `OutOfBounds` when its rows leave memory, and under `reject` when a set bit targets a cell outside the
grid (45_display R161, R163; the spec's decisions D5, D6, log 2, 9). -/
def Obligations.DrwFaults : Prop :=
  ∀ (x y : Reg) (n : Nibble) (s : State),
    (0 < n.toNat → s.i.toNat + n.toNat - 1 > 4095 → exec (.drw x y n) s = .fault .outOfBounds) ∧
    (s.cfg.drawEdge = .reject → SpriteLeavesGrid s x y n → exec (.drw x y n) s = .fault .outOfBounds)

/-- Drawing the same sprite again at the same place restores every cell, and `VF` then says whether the sprite has a set
bit (45_display R161's quoted property; `V[x]`, `V[y]`, `I`, memory and display of the second draw as the first left
them, so `x`, `y` are not `VF`). -/
def Obligations.DrawingTwiceRestores : Prop :=
  ∀ (x y : Reg) (n : Nibble) (s t u : State), x ≠ vf → y ≠ vf → exec (.drw x y n) s = .next t →
    u.v = t.v → u.i = t.i → u.mem = t.mem → u.disp = t.disp → u.cfg = t.cfg →
    ∃ r, exec (.drw x y n) u = .next r ∧ (∀ cx cy, r.pixel cx cy = s.pixel cx cy) ∧
      (t.reg vf = 0 → ((∃ cx cy, SpriteTargets s x y n cx cy) ↔ r.reg vf = 1))

/-! ### Keyboard -/

/-- `SKP Vx` and `SKNP Vx` (46_keyboard R170, R171): the query consumes the latch of the key that `V[x]` names, other
cells stay, and the skip goes by the latch before. -/
def Obligations.KeySkipResults : Prop :=
  ∀ (x k : Reg) (s : State), (s.reg x).toNat = k.val →
    (∃ t, exec (.skp x) s = .next t ∧ Keeps { key := fun q => q = k } s t ∧ t.keyAt k = false ∧
      t.pc = if s.keyAt k = true then s.pc + 4 else s.pc + 2) ∧
    (∃ t, exec (.sknp x) s = .next t ∧ Keeps { key := fun q => q = k } s t ∧ t.keyAt k = false ∧
      t.pc = if s.keyAt k = false then s.pc + 4 else s.pc + 2)

/-- `SKP` and `SKNP` raise `OutOfBounds` for a key index above 15 (46_keyboard R174; the spec's decision D14, log 16). -/
def Obligations.KeyIndexOutOfRangeFaults : Prop :=
  ∀ (x : Reg) (s : State), 15 < (s.reg x).toNat →
    exec (.skp x) s = .fault .outOfBounds ∧ exec (.sknp x) s = .fault .outOfBounds

/-- `LD Vx, K` (46_keyboard R172): with no key latched the step succeeds and changes nothing; else it stores the least
latched key (R175, the spec's decision D15, log 17), consumes that latch alone and advances. -/
def Obligations.WaitKeyResult : Prop :=
  ∀ (x : Reg) (s : State), ((∀ k, s.keyAt k = false) → exec (.ldVxK x) s = .next s) ∧
    ∀ k, s.keyAt k = true → (∀ j, j < k → s.keyAt j = false) → ∃ t, exec (.ldVxK x) s = .next t ∧
      Keeps { regs := fun r => r = x, key := fun q => q = k } s t ∧ (t.reg x).toNat = k.val ∧
      t.keyAt k = false ∧ t.pc = s.pc + 2

/-! ### Timers -/

/-- `LD Vx, DT`, `LD DT, Vx`, `LD ST, Vx` are plain copies (47_timers R180, R181, R182). -/
def Obligations.TimerCopyResults : Prop :=
  ∀ (x : Reg) (s : State),
    (∃ t, exec (.ldVxDT x) s = .next t ∧ Keeps { regs := fun r => r = x } s t ∧ t.reg x = s.dt ∧ t.pc = s.pc + 2) ∧
    (∃ t, exec (.ldDTVx x) s = .next t ∧ Keeps { dt := True } s t ∧ t.dt = s.reg x ∧ t.pc = s.pc + 2) ∧
    (∃ t, exec (.ldSTVx x) s = .next t ∧ Keeps { st := True } s t ∧ t.st = s.reg x ∧ t.pc = s.pc + 2)

/-! ### Invariants -/

/-- The state after reset meets the invariant (10_state R31; its canonical memory is the model's own, log 25). -/
def Obligations.ResetMeetsInvariant : Prop := State.reset.Inv

/-- Every step from every state that meets the invariant gives one that meets it: canonical memory, `pc` at most 0x10FE
(10_state R23), every stack cell at most 4096 (10_state R25), a positive clock rate. The canonical form is the model's own
(log 25), the bounds rest on the spec's decisions D4, D18 (log 8, 20). -/
def Obligations.StepKeepsInvariant : Prop :=
  ∀ s t : State, s.Inv → step s = .next t → t.Inv

/-- Every host event keeps the invariant, a `tick` with all the steps it runs included (60_exceptions R209, the spec's
decision D1; the invariant as in StepKeepsInvariant, log 6, 25). -/
def Obligations.HostEventKeepsInvariant : Prop :=
  ∀ (e : HostEvent) (s : State), s.Inv → (hostEvent e s).state.Inv

/-! ### Reset and boot -/

/-- The `reset` event (70_reset_and_hazards R250, 10_state R31), for a machine of any parameters: `FONT` in memory from 0 and
all other state zero. -/
def Obligations.ResetValues : Prop :=
  ∀ s t : State, (hostEvent .reset s).state = t →
    (∀ r, t.reg r = 0) ∧ t.i = 0 ∧ t.pc = 0 ∧ t.sp.val = 0 ∧ (∀ j, t.stack.get j = 0) ∧
    (∀ cx cy, t.pixel cx cy = false) ∧ (∀ k, t.keyAt k = false) ∧ t.dt = 0 ∧ t.st = 0 ∧ t.acc = 0 ∧
    (∀ a : Fin 80, t.byteAt a.val = s.cfg.font.get a) ∧ (∀ a, 80 ≤ a → t.byteAt a = 0) ∧ t.cfg = s.cfg

/-- `State.reset` has the reset values of 10_state R31, its memory with the machine's `FONT`, which is there the default table
(log 4). -/
def Obligations.ResetStateValues : Prop :=
  (∀ r, State.reset.reg r = 0) ∧ State.reset.i = 0 ∧ State.reset.pc = 0 ∧ State.reset.sp.val = 0 ∧
    (∀ j, State.reset.stack.get j = 0) ∧ (∀ cx cy, State.reset.pixel cx cy = false) ∧
    (∀ k, State.reset.keyAt k = false) ∧ State.reset.dt = 0 ∧ State.reset.st = 0 ∧ State.reset.acc = 0 ∧
    (∀ a : Fin 80, State.reset.byteAt a.val = State.reset.cfg.font.get a) ∧ (∀ a, 80 ≤ a → State.reset.byteAt a = 0)

/-- `load_program` (70_reset_and_hazards R252, R253): over 3584 bytes it fails and changes nothing; else the image lies at
0x200, `pc` is 0x200, and nothing else changes (the spec's decision D26, log 22). Memory is taken in its canonical form. -/
def Obligations.LoadProgramResult : Prop :=
  ∀ (bytes : List Byte) (s : State),
    (bytes.length > 3584 → hostEvent (.loadProgram bytes) s = ⟨s, .error .romTooLarge⟩) ∧
    (bytes.length ≤ 3584 → s.mem.wf = true → ∃ t, hostEvent (.loadProgram bytes) s = ⟨t, .ok⟩ ∧
      Keeps { mem := fun a => 0x200 ≤ a ∧ a < 0x200 + bytes.length } s t ∧
      (∀ (k : Nat) (h : k < bytes.length), t.byteAt (0x200 + k) = bytes[k]) ∧ t.pc = 0x200)

/-! ### The sequencer -/

/-- `acc` is invisible to every instruction (10_state R29): a step from a state with another `acc` does the same, and
carries that `acc` along (its units are the spec's decision D21, log 21). -/
def Obligations.AccumulatorIsInvisible : Prop :=
  ∀ (n : Nat) (s : State), step (s.setAcc n) = mapNext (fun t => t.setAcc n) (step s)

/-- `ST` is read by no instruction (10_state R28): a step from a state with another `ST` ends the same way and differs in
`ST` alone. -/
def Obligations.SoundTimerIsInvisible : Prop :=
  ∀ (b : Byte) (s : State), (∀ t, step s = .next t → ∃ c, step (s.setST b) = .next (t.setST c)) ∧
    (∀ f, step s = .fault f → step (s.setST b) = .fault f)

/-- An error-free `tick(e)` runs exactly `(acc + e * CLOCK_HZ) / 1000` steps and leaves the remainder in `acc`
(60_exceptions R210, R211; units of the spec's decision D21, log 21). -/
def Obligations.TickRunsTheDueSteps : Prop :=
  ∀ (e : Nat) (s u : State), core.run ((s.acc + e * s.cfg.clockHz) / 1000) s = .next u →
    hostEvent (.tick e) s = ⟨u.setAcc ((s.acc + e * s.cfg.clockHz) % 1000), .ok⟩

/-- A failing step inside a `tick` (60_exceptions R212, the spec's decision D20, log 7): the `j` steps before it have run,
its own period is charged, the rest of `acc` is kept, the error is returned, and nothing else of the state changes. -/
def Obligations.TickStopsAtFailingStep : Prop :=
  ∀ (e j : Nat) (s u : State) (f : Fault), j < (s.acc + e * s.cfg.clockHz) / 1000 → core.run j s = .next u →
    step u = .fault f →
    hostEvent (.tick e) s = ⟨u.setAcc (s.acc + e * s.cfg.clockHz - 1000 * (j + 1)), .error f⟩

/-- No drift (60_exceptions R211): after an error-free first tick, a second one gives the state and the answer that one tick
of the whole time gives, the second part failing included (units of the spec's decision D21, log 21). -/
def Obligations.TicksDoNotDrift : Prop :=
  ∀ (d e : Nat) (s : State), (hostEvent (.tick d) s).reply = .ok →
    hostEvent (.tick e) (hostEvent (.tick d) s).state = hostEvent (.tick (d + e)) s

/-- An error repeats for ever (60_exceptions R205 [derived]): whatever the host does short of a reset or a load, the next
step raises the same error (the spec's decision D20, log 7). -/
def Obligations.ErrorRepeatsForEver : Prop :=
  ∀ (es : List HostEvent) (s : State) (f : Fault), (∀ e ∈ es, e.keepsProgram = true) → step s = .fault f →
    step (runEvents es s) = .fault f

/-! ### Keys, timers and read ports of the host -/

/-- `key_event` sets or clears its cell alone (60_exceptions R213), and `timer_tick` counts each timer down by one, a
timer at 0 staying there (R215; the stop at 0 is the spec's general knowledge G5, log 19); no other state changes, `pc`
included. -/
def Obligations.KeyAndTimerEvents : Prop :=
  ∀ (s : State),
    (∀ (k : Reg) (p : Bool), ∃ t, hostEvent (.keyEvent k p) s = ⟨t, .ok⟩ ∧ Keeps { key := fun q => q = k } s t ∧
      t.keyAt k = p ∧ t.pc = s.pc) ∧
    ∃ t, hostEvent .timerTick s = ⟨t, .ok⟩ ∧ Keeps { dt := True, st := True } s t ∧
      t.dt.toNat = s.dt.toNat - 1 ∧ t.st.toNat = s.st.toNat - 1 ∧ t.pc = s.pc

/-- A press and its release with no step between are as the release alone (60_exceptions R213); and a press is seen by one
`SKP` of its key and not by the next (R214, 46_keyboard R170). The port's 4-bit index is the spec's decision D28 (log 26). -/
def Obligations.PressIsSeenOnce : Prop :=
  (∀ (k : Reg) (s : State),
    hostEvent (.keyEvent k false) (hostEvent (.keyEvent k true) s).state = hostEvent (.keyEvent k false) s) ∧
  ∀ (x k : Reg) (s : State), (s.reg x).toNat = k.val →
    ∃ t, exec (.skp x) (hostEvent (.keyEvent k true) s).state = .next t ∧ t.pc = s.pc + 4 ∧
      ∃ u, exec (.skp x) t = .next u ∧ u.pc = t.pc + 2

/-- The read ports change nothing; `read_display` delivers cell `cy * 64 + cx` (60_exceptions R218, the spec's decision
D10, log 23) and `snapshot_registers` the registers of R219. -/
def Obligations.ReadPortsShowTheState : Prop :=
  ∀ s : State,
    (∃ cells, hostEvent .readDisplay s = ⟨s, .display cells⟩ ∧ cells.length = 2048 ∧
      ∀ (cx : Fin 64) (cy : Fin 32), cells[cy.val * 64 + cx.val]? = some (s.pixel cx cy)) ∧
    ∃ r, hostEvent .snapshotRegisters s = ⟨s, .registers r⟩ ∧ (∀ q, r.v.get q = s.reg q) ∧ r.i = s.i ∧
      r.pc = s.pc ∧ r.dt = s.dt ∧ r.st = s.st ∧ r.sp = s.sp
end

