-- ==== Sys2Proof/Laws/State.lean ====
section
/-! SUPPORT. One lemma per field per update of State, and what the observers see of each update. -/

namespace Sys2Proof.Machine

variable (s : State)

@[simp] theorem State.setI_v (w : Word) : (s.setI w).v = s.v := rfl
@[simp] theorem State.setI_i (w : Word) : (s.setI w).i = w := rfl
@[simp] theorem State.setI_pc (w : Word) : (s.setI w).pc = s.pc := rfl
@[simp] theorem State.setI_mem (w : Word) : (s.setI w).mem = s.mem := rfl
@[simp] theorem State.setI_stack (w : Word) : (s.setI w).stack = s.stack := rfl
@[simp] theorem State.setI_sp (w : Word) : (s.setI w).sp = s.sp := rfl
@[simp] theorem State.setI_disp (w : Word) : (s.setI w).disp = s.disp := rfl
@[simp] theorem State.setI_key (w : Word) : (s.setI w).key = s.key := rfl
@[simp] theorem State.setI_dt (w : Word) : (s.setI w).dt = s.dt := rfl
@[simp] theorem State.setI_st (w : Word) : (s.setI w).st = s.st := rfl
@[simp] theorem State.setI_acc (w : Word) : (s.setI w).acc = s.acc := rfl
@[simp] theorem State.setI_draws (w : Word) : (s.setI w).draws = s.draws := rfl
@[simp] theorem State.setI_cfg (w : Word) : (s.setI w).cfg = s.cfg := rfl
@[simp] theorem State.setI_reg (w : Word) (q : Reg) : (s.setI w).reg q = s.reg q := rfl
@[simp] theorem State.setI_byteAt (w : Word) (a : Nat) : (s.setI w).byteAt a = s.byteAt a := rfl
@[simp] theorem State.setI_pixel (w : Word) (cx : Fin 64) (cy : Fin 32) : (s.setI w).pixel cx cy = s.pixel cx cy := rfl
@[simp] theorem State.setI_keyAt (w : Word) (q : Reg) : (s.setI w).keyAt q = s.keyAt q := rfl

@[simp] theorem State.setPc_v (w : Word) : (s.setPc w).v = s.v := rfl
@[simp] theorem State.setPc_i (w : Word) : (s.setPc w).i = s.i := rfl
@[simp] theorem State.setPc_pc (w : Word) : (s.setPc w).pc = w := rfl
@[simp] theorem State.setPc_mem (w : Word) : (s.setPc w).mem = s.mem := rfl
@[simp] theorem State.setPc_stack (w : Word) : (s.setPc w).stack = s.stack := rfl
@[simp] theorem State.setPc_sp (w : Word) : (s.setPc w).sp = s.sp := rfl
@[simp] theorem State.setPc_disp (w : Word) : (s.setPc w).disp = s.disp := rfl
@[simp] theorem State.setPc_key (w : Word) : (s.setPc w).key = s.key := rfl
@[simp] theorem State.setPc_dt (w : Word) : (s.setPc w).dt = s.dt := rfl
@[simp] theorem State.setPc_st (w : Word) : (s.setPc w).st = s.st := rfl
@[simp] theorem State.setPc_acc (w : Word) : (s.setPc w).acc = s.acc := rfl
@[simp] theorem State.setPc_draws (w : Word) : (s.setPc w).draws = s.draws := rfl
@[simp] theorem State.setPc_cfg (w : Word) : (s.setPc w).cfg = s.cfg := rfl
@[simp] theorem State.setPc_reg (w : Word) (q : Reg) : (s.setPc w).reg q = s.reg q := rfl
@[simp] theorem State.setPc_byteAt (w : Word) (a : Nat) : (s.setPc w).byteAt a = s.byteAt a := rfl
@[simp] theorem State.setPc_pixel (w : Word) (cx : Fin 64) (cy : Fin 32) : (s.setPc w).pixel cx cy = s.pixel cx cy := rfl
@[simp] theorem State.setPc_keyAt (w : Word) (q : Reg) : (s.setPc w).keyAt q = s.keyAt q := rfl
@[simp] theorem State.setPc_dataAddr (w : Word) (j : Nat) : (s.setPc w).dataAddr j = s.dataAddr j := rfl

@[simp] theorem State.setMem_v (m : Memory) : (s.setMem m).v = s.v := rfl
@[simp] theorem State.setMem_i (m : Memory) : (s.setMem m).i = s.i := rfl
@[simp] theorem State.setMem_pc (m : Memory) : (s.setMem m).pc = s.pc := rfl
@[simp] theorem State.setMem_mem (m : Memory) : (s.setMem m).mem = m := rfl
@[simp] theorem State.setMem_stack (m : Memory) : (s.setMem m).stack = s.stack := rfl
@[simp] theorem State.setMem_sp (m : Memory) : (s.setMem m).sp = s.sp := rfl
@[simp] theorem State.setMem_disp (m : Memory) : (s.setMem m).disp = s.disp := rfl
@[simp] theorem State.setMem_key (m : Memory) : (s.setMem m).key = s.key := rfl
@[simp] theorem State.setMem_dt (m : Memory) : (s.setMem m).dt = s.dt := rfl
@[simp] theorem State.setMem_st (m : Memory) : (s.setMem m).st = s.st := rfl
@[simp] theorem State.setMem_acc (m : Memory) : (s.setMem m).acc = s.acc := rfl
@[simp] theorem State.setMem_draws (m : Memory) : (s.setMem m).draws = s.draws := rfl
@[simp] theorem State.setMem_cfg (m : Memory) : (s.setMem m).cfg = s.cfg := rfl
@[simp] theorem State.setMem_reg (m : Memory) (q : Reg) : (s.setMem m).reg q = s.reg q := rfl
@[simp] theorem State.setMem_pixel (m : Memory) (cx : Fin 64) (cy : Fin 32) : (s.setMem m).pixel cx cy = s.pixel cx cy := rfl
@[simp] theorem State.setMem_keyAt (m : Memory) (q : Reg) : (s.setMem m).keyAt q = s.keyAt q := rfl
@[simp] theorem State.setMem_dataAddr (m : Memory) (j : Nat) : (s.setMem m).dataAddr j = s.dataAddr j := rfl

@[simp] theorem State.setStack_v (c : Vector Word 32) (d : Fin 33) : (s.setStack c d).v = s.v := rfl
@[simp] theorem State.setStack_i (c : Vector Word 32) (d : Fin 33) : (s.setStack c d).i = s.i := rfl
@[simp] theorem State.setStack_pc (c : Vector Word 32) (d : Fin 33) : (s.setStack c d).pc = s.pc := rfl
@[simp] theorem State.setStack_mem (c : Vector Word 32) (d : Fin 33) : (s.setStack c d).mem = s.mem := rfl
@[simp] theorem State.setStack_stack (c : Vector Word 32) (d : Fin 33) : (s.setStack c d).stack = c := rfl
@[simp] theorem State.setStack_sp (c : Vector Word 32) (d : Fin 33) : (s.setStack c d).sp = d := rfl
@[simp] theorem State.setStack_disp (c : Vector Word 32) (d : Fin 33) : (s.setStack c d).disp = s.disp := rfl
@[simp] theorem State.setStack_key (c : Vector Word 32) (d : Fin 33) : (s.setStack c d).key = s.key := rfl
@[simp] theorem State.setStack_dt (c : Vector Word 32) (d : Fin 33) : (s.setStack c d).dt = s.dt := rfl
@[simp] theorem State.setStack_st (c : Vector Word 32) (d : Fin 33) : (s.setStack c d).st = s.st := rfl
@[simp] theorem State.setStack_acc (c : Vector Word 32) (d : Fin 33) : (s.setStack c d).acc = s.acc := rfl
@[simp] theorem State.setStack_draws (c : Vector Word 32) (d : Fin 33) : (s.setStack c d).draws = s.draws := rfl
@[simp] theorem State.setStack_cfg (c : Vector Word 32) (d : Fin 33) : (s.setStack c d).cfg = s.cfg := rfl
@[simp] theorem State.setStack_reg (c : Vector Word 32) (d : Fin 33) (q : Reg) : (s.setStack c d).reg q = s.reg q := rfl
@[simp] theorem State.setStack_byteAt (c : Vector Word 32) (d : Fin 33) (a : Nat) : (s.setStack c d).byteAt a = s.byteAt a := rfl
@[simp] theorem State.setStack_pixel (c : Vector Word 32) (d : Fin 33) (cx : Fin 64) (cy : Fin 32) : (s.setStack c d).pixel cx cy = s.pixel cx cy := rfl
@[simp] theorem State.setStack_keyAt (c : Vector Word 32) (d : Fin 33) (q : Reg) : (s.setStack c d).keyAt q = s.keyAt q := rfl
@[simp] theorem State.setStack_dataAddr (c : Vector Word 32) (d : Fin 33) (j : Nat) : (s.setStack c d).dataAddr j = s.dataAddr j := rfl

@[simp] theorem State.setDisp_v (d : Display) : (s.setDisp d).v = s.v := rfl
@[simp] theorem State.setDisp_i (d : Display) : (s.setDisp d).i = s.i := rfl
@[simp] theorem State.setDisp_pc (d : Display) : (s.setDisp d).pc = s.pc := rfl
@[simp] theorem State.setDisp_mem (d : Display) : (s.setDisp d).mem = s.mem := rfl
@[simp] theorem State.setDisp_stack (d : Display) : (s.setDisp d).stack = s.stack := rfl
@[simp] theorem State.setDisp_sp (d : Display) : (s.setDisp d).sp = s.sp := rfl
@[simp] theorem State.setDisp_disp (d : Display) : (s.setDisp d).disp = d := rfl
@[simp] theorem State.setDisp_key (d : Display) : (s.setDisp d).key = s.key := rfl
@[simp] theorem State.setDisp_dt (d : Display) : (s.setDisp d).dt = s.dt := rfl
@[simp] theorem State.setDisp_st (d : Display) : (s.setDisp d).st = s.st := rfl
@[simp] theorem State.setDisp_acc (d : Display) : (s.setDisp d).acc = s.acc := rfl
@[simp] theorem State.setDisp_draws (d : Display) : (s.setDisp d).draws = s.draws := rfl
@[simp] theorem State.setDisp_cfg (d : Display) : (s.setDisp d).cfg = s.cfg := rfl
@[simp] theorem State.setDisp_reg (d : Display) (q : Reg) : (s.setDisp d).reg q = s.reg q := rfl
@[simp] theorem State.setDisp_byteAt (d : Display) (a : Nat) : (s.setDisp d).byteAt a = s.byteAt a := rfl
@[simp] theorem State.setDisp_keyAt (d : Display) (q : Reg) : (s.setDisp d).keyAt q = s.keyAt q := rfl
@[simp] theorem State.setDisp_dataAddr (d : Display) (j : Nat) : (s.setDisp d).dataAddr j = s.dataAddr j := rfl

@[simp] theorem State.setDT_v (b : Byte) : (s.setDT b).v = s.v := rfl
@[simp] theorem State.setDT_i (b : Byte) : (s.setDT b).i = s.i := rfl
@[simp] theorem State.setDT_pc (b : Byte) : (s.setDT b).pc = s.pc := rfl
@[simp] theorem State.setDT_mem (b : Byte) : (s.setDT b).mem = s.mem := rfl
@[simp] theorem State.setDT_stack (b : Byte) : (s.setDT b).stack = s.stack := rfl
@[simp] theorem State.setDT_sp (b : Byte) : (s.setDT b).sp = s.sp := rfl
@[simp] theorem State.setDT_disp (b : Byte) : (s.setDT b).disp = s.disp := rfl
@[simp] theorem State.setDT_key (b : Byte) : (s.setDT b).key = s.key := rfl
@[simp] theorem State.setDT_dt (b : Byte) : (s.setDT b).dt = b := rfl
@[simp] theorem State.setDT_st (b : Byte) : (s.setDT b).st = s.st := rfl
@[simp] theorem State.setDT_acc (b : Byte) : (s.setDT b).acc = s.acc := rfl
@[simp] theorem State.setDT_draws (b : Byte) : (s.setDT b).draws = s.draws := rfl
@[simp] theorem State.setDT_cfg (b : Byte) : (s.setDT b).cfg = s.cfg := rfl
@[simp] theorem State.setDT_reg (b : Byte) (q : Reg) : (s.setDT b).reg q = s.reg q := rfl
@[simp] theorem State.setDT_byteAt (b : Byte) (a : Nat) : (s.setDT b).byteAt a = s.byteAt a := rfl
@[simp] theorem State.setDT_pixel (b : Byte) (cx : Fin 64) (cy : Fin 32) : (s.setDT b).pixel cx cy = s.pixel cx cy := rfl
@[simp] theorem State.setDT_keyAt (b : Byte) (q : Reg) : (s.setDT b).keyAt q = s.keyAt q := rfl
@[simp] theorem State.setDT_dataAddr (b : Byte) (j : Nat) : (s.setDT b).dataAddr j = s.dataAddr j := rfl

@[simp] theorem State.setST_v (b : Byte) : (s.setST b).v = s.v := rfl
@[simp] theorem State.setST_i (b : Byte) : (s.setST b).i = s.i := rfl
@[simp] theorem State.setST_pc (b : Byte) : (s.setST b).pc = s.pc := rfl
@[simp] theorem State.setST_mem (b : Byte) : (s.setST b).mem = s.mem := rfl
@[simp] theorem State.setST_stack (b : Byte) : (s.setST b).stack = s.stack := rfl
@[simp] theorem State.setST_sp (b : Byte) : (s.setST b).sp = s.sp := rfl
@[simp] theorem State.setST_disp (b : Byte) : (s.setST b).disp = s.disp := rfl
@[simp] theorem State.setST_key (b : Byte) : (s.setST b).key = s.key := rfl
@[simp] theorem State.setST_dt (b : Byte) : (s.setST b).dt = s.dt := rfl
@[simp] theorem State.setST_st (b : Byte) : (s.setST b).st = b := rfl
@[simp] theorem State.setST_acc (b : Byte) : (s.setST b).acc = s.acc := rfl
@[simp] theorem State.setST_draws (b : Byte) : (s.setST b).draws = s.draws := rfl
@[simp] theorem State.setST_cfg (b : Byte) : (s.setST b).cfg = s.cfg := rfl
@[simp] theorem State.setST_reg (b : Byte) (q : Reg) : (s.setST b).reg q = s.reg q := rfl
@[simp] theorem State.setST_byteAt (b : Byte) (a : Nat) : (s.setST b).byteAt a = s.byteAt a := rfl
@[simp] theorem State.setST_pixel (b : Byte) (cx : Fin 64) (cy : Fin 32) : (s.setST b).pixel cx cy = s.pixel cx cy := rfl
@[simp] theorem State.setST_keyAt (b : Byte) (q : Reg) : (s.setST b).keyAt q = s.keyAt q := rfl
@[simp] theorem State.setST_dataAddr (b : Byte) (j : Nat) : (s.setST b).dataAddr j = s.dataAddr j := rfl

@[simp] theorem State.setAcc_v (n : Nat) : (s.setAcc n).v = s.v := rfl
@[simp] theorem State.setAcc_i (n : Nat) : (s.setAcc n).i = s.i := rfl
@[simp] theorem State.setAcc_pc (n : Nat) : (s.setAcc n).pc = s.pc := rfl
@[simp] theorem State.setAcc_mem (n : Nat) : (s.setAcc n).mem = s.mem := rfl
@[simp] theorem State.setAcc_stack (n : Nat) : (s.setAcc n).stack = s.stack := rfl
@[simp] theorem State.setAcc_sp (n : Nat) : (s.setAcc n).sp = s.sp := rfl
@[simp] theorem State.setAcc_disp (n : Nat) : (s.setAcc n).disp = s.disp := rfl
@[simp] theorem State.setAcc_key (n : Nat) : (s.setAcc n).key = s.key := rfl
@[simp] theorem State.setAcc_dt (n : Nat) : (s.setAcc n).dt = s.dt := rfl
@[simp] theorem State.setAcc_st (n : Nat) : (s.setAcc n).st = s.st := rfl
@[simp] theorem State.setAcc_acc (n : Nat) : (s.setAcc n).acc = n := rfl
@[simp] theorem State.setAcc_draws (n : Nat) : (s.setAcc n).draws = s.draws := rfl
@[simp] theorem State.setAcc_cfg (n : Nat) : (s.setAcc n).cfg = s.cfg := rfl
@[simp] theorem State.setAcc_reg (n : Nat) (q : Reg) : (s.setAcc n).reg q = s.reg q := rfl
@[simp] theorem State.setAcc_byteAt (n : Nat) (a : Nat) : (s.setAcc n).byteAt a = s.byteAt a := rfl
@[simp] theorem State.setAcc_pixel (n : Nat) (cx : Fin 64) (cy : Fin 32) : (s.setAcc n).pixel cx cy = s.pixel cx cy := rfl
@[simp] theorem State.setAcc_keyAt (n : Nat) (q : Reg) : (s.setAcc n).keyAt q = s.keyAt q := rfl
@[simp] theorem State.setAcc_dataAddr (n : Nat) (j : Nat) : (s.setAcc n).dataAddr j = s.dataAddr j := rfl

@[simp] theorem State.countDraw_v : (s.countDraw).v = s.v := rfl
@[simp] theorem State.countDraw_i : (s.countDraw).i = s.i := rfl
@[simp] theorem State.countDraw_pc : (s.countDraw).pc = s.pc := rfl
@[simp] theorem State.countDraw_mem : (s.countDraw).mem = s.mem := rfl
@[simp] theorem State.countDraw_stack : (s.countDraw).stack = s.stack := rfl
@[simp] theorem State.countDraw_sp : (s.countDraw).sp = s.sp := rfl
@[simp] theorem State.countDraw_disp : (s.countDraw).disp = s.disp := rfl
@[simp] theorem State.countDraw_key : (s.countDraw).key = s.key := rfl
@[simp] theorem State.countDraw_dt : (s.countDraw).dt = s.dt := rfl
@[simp] theorem State.countDraw_st : (s.countDraw).st = s.st := rfl
@[simp] theorem State.countDraw_acc : (s.countDraw).acc = s.acc := rfl
@[simp] theorem State.countDraw_draws : (s.countDraw).draws = s.draws + 1 := rfl
@[simp] theorem State.countDraw_cfg : (s.countDraw).cfg = s.cfg := rfl
@[simp] theorem State.countDraw_reg (q : Reg) : (s.countDraw).reg q = s.reg q := rfl
@[simp] theorem State.countDraw_byteAt (a : Nat) : (s.countDraw).byteAt a = s.byteAt a := rfl
@[simp] theorem State.countDraw_pixel (cx : Fin 64) (cy : Fin 32) : (s.countDraw).pixel cx cy = s.pixel cx cy := rfl
@[simp] theorem State.countDraw_keyAt (q : Reg) : (s.countDraw).keyAt q = s.keyAt q := rfl
@[simp] theorem State.countDraw_dataAddr (j : Nat) : (s.countDraw).dataAddr j = s.dataAddr j := rfl

@[simp] theorem State.setReg_v (r : Reg) (b : Byte) : (s.setReg r b).v = s.v.set r.val b r.isLt := rfl
@[simp] theorem State.setReg_i (r : Reg) (b : Byte) : (s.setReg r b).i = s.i := rfl
@[simp] theorem State.setReg_pc (r : Reg) (b : Byte) : (s.setReg r b).pc = s.pc := rfl
@[simp] theorem State.setReg_mem (r : Reg) (b : Byte) : (s.setReg r b).mem = s.mem := rfl
@[simp] theorem State.setReg_stack (r : Reg) (b : Byte) : (s.setReg r b).stack = s.stack := rfl
@[simp] theorem State.setReg_sp (r : Reg) (b : Byte) : (s.setReg r b).sp = s.sp := rfl
@[simp] theorem State.setReg_disp (r : Reg) (b : Byte) : (s.setReg r b).disp = s.disp := rfl
@[simp] theorem State.setReg_key (r : Reg) (b : Byte) : (s.setReg r b).key = s.key := rfl
@[simp] theorem State.setReg_dt (r : Reg) (b : Byte) : (s.setReg r b).dt = s.dt := rfl
@[simp] theorem State.setReg_st (r : Reg) (b : Byte) : (s.setReg r b).st = s.st := rfl
@[simp] theorem State.setReg_acc (r : Reg) (b : Byte) : (s.setReg r b).acc = s.acc := rfl
@[simp] theorem State.setReg_draws (r : Reg) (b : Byte) : (s.setReg r b).draws = s.draws := rfl
@[simp] theorem State.setReg_cfg (r : Reg) (b : Byte) : (s.setReg r b).cfg = s.cfg := rfl
@[simp] theorem State.setReg_byteAt (r : Reg) (b : Byte) (a : Nat) : (s.setReg r b).byteAt a = s.byteAt a := rfl
@[simp] theorem State.setReg_pixel (r : Reg) (b : Byte) (cx : Fin 64) (cy : Fin 32) : (s.setReg r b).pixel cx cy = s.pixel cx cy := rfl
@[simp] theorem State.setReg_keyAt (r : Reg) (b : Byte) (q : Reg) : (s.setReg r b).keyAt q = s.keyAt q := rfl
@[simp] theorem State.setReg_dataAddr (r : Reg) (b : Byte) (j : Nat) : (s.setReg r b).dataAddr j = s.dataAddr j := rfl

@[simp] theorem State.setFlag_v (b : Byte) : (s.setFlag b).v = s.v.set vf.val b vf.isLt := rfl
@[simp] theorem State.setFlag_i (b : Byte) : (s.setFlag b).i = s.i := rfl
@[simp] theorem State.setFlag_pc (b : Byte) : (s.setFlag b).pc = s.pc := rfl
@[simp] theorem State.setFlag_mem (b : Byte) : (s.setFlag b).mem = s.mem := rfl
@[simp] theorem State.setFlag_stack (b : Byte) : (s.setFlag b).stack = s.stack := rfl
@[simp] theorem State.setFlag_sp (b : Byte) : (s.setFlag b).sp = s.sp := rfl
@[simp] theorem State.setFlag_disp (b : Byte) : (s.setFlag b).disp = s.disp := rfl
@[simp] theorem State.setFlag_key (b : Byte) : (s.setFlag b).key = s.key := rfl
@[simp] theorem State.setFlag_dt (b : Byte) : (s.setFlag b).dt = s.dt := rfl
@[simp] theorem State.setFlag_st (b : Byte) : (s.setFlag b).st = s.st := rfl
@[simp] theorem State.setFlag_acc (b : Byte) : (s.setFlag b).acc = s.acc := rfl
@[simp] theorem State.setFlag_draws (b : Byte) : (s.setFlag b).draws = s.draws := rfl
@[simp] theorem State.setFlag_cfg (b : Byte) : (s.setFlag b).cfg = s.cfg := rfl
@[simp] theorem State.setFlag_byteAt (b : Byte) (a : Nat) : (s.setFlag b).byteAt a = s.byteAt a := rfl
@[simp] theorem State.setFlag_pixel (b : Byte) (cx : Fin 64) (cy : Fin 32) : (s.setFlag b).pixel cx cy = s.pixel cx cy := rfl
@[simp] theorem State.setFlag_keyAt (b : Byte) (q : Reg) : (s.setFlag b).keyAt q = s.keyAt q := rfl
@[simp] theorem State.setFlag_dataAddr (b : Byte) (j : Nat) : (s.setFlag b).dataAddr j = s.dataAddr j := rfl

@[simp] theorem State.setKey_v (k : Reg) (p : Bool) : (s.setKey k p).v = s.v := rfl
@[simp] theorem State.setKey_i (k : Reg) (p : Bool) : (s.setKey k p).i = s.i := rfl
@[simp] theorem State.setKey_pc (k : Reg) (p : Bool) : (s.setKey k p).pc = s.pc := rfl
@[simp] theorem State.setKey_mem (k : Reg) (p : Bool) : (s.setKey k p).mem = s.mem := rfl
@[simp] theorem State.setKey_stack (k : Reg) (p : Bool) : (s.setKey k p).stack = s.stack := rfl
@[simp] theorem State.setKey_sp (k : Reg) (p : Bool) : (s.setKey k p).sp = s.sp := rfl
@[simp] theorem State.setKey_disp (k : Reg) (p : Bool) : (s.setKey k p).disp = s.disp := rfl
@[simp] theorem State.setKey_key (k : Reg) (p : Bool) : (s.setKey k p).key = s.key.set k.val p k.isLt := rfl
@[simp] theorem State.setKey_dt (k : Reg) (p : Bool) : (s.setKey k p).dt = s.dt := rfl
@[simp] theorem State.setKey_st (k : Reg) (p : Bool) : (s.setKey k p).st = s.st := rfl
@[simp] theorem State.setKey_acc (k : Reg) (p : Bool) : (s.setKey k p).acc = s.acc := rfl
@[simp] theorem State.setKey_draws (k : Reg) (p : Bool) : (s.setKey k p).draws = s.draws := rfl
@[simp] theorem State.setKey_cfg (k : Reg) (p : Bool) : (s.setKey k p).cfg = s.cfg := rfl
@[simp] theorem State.setKey_reg (k : Reg) (p : Bool) (q : Reg) : (s.setKey k p).reg q = s.reg q := rfl
@[simp] theorem State.setKey_byteAt (k : Reg) (p : Bool) (a : Nat) : (s.setKey k p).byteAt a = s.byteAt a := rfl
@[simp] theorem State.setKey_pixel (k : Reg) (p : Bool) (cx : Fin 64) (cy : Fin 32) : (s.setKey k p).pixel cx cy = s.pixel cx cy := rfl
@[simp] theorem State.setKey_dataAddr (k : Reg) (p : Bool) (j : Nat) : (s.setKey k p).dataAddr j = s.dataAddr j := rfl

@[simp] theorem State.advance_v : (s.advance).v = s.v := rfl
@[simp] theorem State.advance_i : (s.advance).i = s.i := rfl
@[simp] theorem State.advance_pc : (s.advance).pc = s.pc + 2 := rfl
@[simp] theorem State.advance_mem : (s.advance).mem = s.mem := rfl
@[simp] theorem State.advance_stack : (s.advance).stack = s.stack := rfl
@[simp] theorem State.advance_sp : (s.advance).sp = s.sp := rfl
@[simp] theorem State.advance_disp : (s.advance).disp = s.disp := rfl
@[simp] theorem State.advance_key : (s.advance).key = s.key := rfl
@[simp] theorem State.advance_dt : (s.advance).dt = s.dt := rfl
@[simp] theorem State.advance_st : (s.advance).st = s.st := rfl
@[simp] theorem State.advance_acc : (s.advance).acc = s.acc := rfl
@[simp] theorem State.advance_draws : (s.advance).draws = s.draws := rfl
@[simp] theorem State.advance_cfg : (s.advance).cfg = s.cfg := rfl
@[simp] theorem State.advance_reg (q : Reg) : (s.advance).reg q = s.reg q := rfl
@[simp] theorem State.advance_byteAt (a : Nat) : (s.advance).byteAt a = s.byteAt a := rfl
@[simp] theorem State.advance_pixel (cx : Fin 64) (cy : Fin 32) : (s.advance).pixel cx cy = s.pixel cx cy := rfl
@[simp] theorem State.advance_keyAt (q : Reg) : (s.advance).keyAt q = s.keyAt q := rfl
@[simp] theorem State.advance_dataAddr (j : Nat) : (s.advance).dataAddr j = s.dataAddr j := rfl

@[simp] theorem State.skipIf_v (c : Bool) : (s.skipIf c).v = s.v := rfl
@[simp] theorem State.skipIf_i (c : Bool) : (s.skipIf c).i = s.i := rfl
@[simp] theorem State.skipIf_pc (c : Bool) : (s.skipIf c).pc = if c then s.pc + 4 else s.pc + 2 := rfl
@[simp] theorem State.skipIf_mem (c : Bool) : (s.skipIf c).mem = s.mem := rfl
@[simp] theorem State.skipIf_stack (c : Bool) : (s.skipIf c).stack = s.stack := rfl
@[simp] theorem State.skipIf_sp (c : Bool) : (s.skipIf c).sp = s.sp := rfl
@[simp] theorem State.skipIf_disp (c : Bool) : (s.skipIf c).disp = s.disp := rfl
@[simp] theorem State.skipIf_key (c : Bool) : (s.skipIf c).key = s.key := rfl
@[simp] theorem State.skipIf_dt (c : Bool) : (s.skipIf c).dt = s.dt := rfl
@[simp] theorem State.skipIf_st (c : Bool) : (s.skipIf c).st = s.st := rfl
@[simp] theorem State.skipIf_acc (c : Bool) : (s.skipIf c).acc = s.acc := rfl
@[simp] theorem State.skipIf_draws (c : Bool) : (s.skipIf c).draws = s.draws := rfl
@[simp] theorem State.skipIf_cfg (c : Bool) : (s.skipIf c).cfg = s.cfg := rfl
@[simp] theorem State.skipIf_reg (c : Bool) (q : Reg) : (s.skipIf c).reg q = s.reg q := rfl
@[simp] theorem State.skipIf_byteAt (c : Bool) (a : Nat) : (s.skipIf c).byteAt a = s.byteAt a := rfl
@[simp] theorem State.skipIf_pixel (c : Bool) (cx : Fin 64) (cy : Fin 32) : (s.skipIf c).pixel cx cy = s.pixel cx cy := rfl
@[simp] theorem State.skipIf_keyAt (c : Bool) (q : Reg) : (s.skipIf c).keyAt q = s.keyAt q := rfl
@[simp] theorem State.skipIf_dataAddr (c : Bool) (j : Nat) : (s.skipIf c).dataAddr j = s.dataAddr j := rfl

/-- A register reads as last written, and a write leaves the others alone. -/
@[simp] theorem State.setReg_reg (r : Reg) (b : Byte) (q : Reg) : (s.setReg r b).reg q = if q = r then b else s.reg q := by
  simp only [State.reg, State.setReg, Vector.get_eq_getElem, Vector.getElem_set, Fin.ext_iff, eq_comm]

/-- The flag is `V[15]`. -/
@[simp] theorem State.setFlag_reg (b : Byte) (q : Reg) : (s.setFlag b).reg q = if q = vf then b else s.reg q :=
  State.setReg_reg s vf b q

/-- A latch cell reads as last written, and a write leaves the others alone. -/
@[simp] theorem State.setKey_keyAt (k : Reg) (p : Bool) (q : Reg) :
    (s.setKey k p).keyAt q = if q = k then p else s.keyAt q := by
  simp only [State.keyAt, State.setKey, Vector.get_eq_getElem, Vector.getElem_set, Fin.ext_iff, eq_comm]

@[simp] theorem State.setMem_byteAt (m : Memory) (a : Nat) : (s.setMem m).byteAt a = m.read a := rfl

@[simp] theorem State.setDisp_pixel (d : Display) (cx : Fin 64) (cy : Fin 32) :
    (s.setDisp d).pixel cx cy = Display.cell d cx cy := rfl

@[simp] theorem State.setI_dataAddr (w : Word) (k : Nat) : (s.setI w).dataAddr k = w.toNat + k := rfl

end Sys2Proof.Machine
end

