-- ==== Sys2Proof/Laws/Display.lean ====
section
/-! SUPPORT. The display: what a toggle changes, and the sprite loop stated combinationally (45_display R167). -/

namespace Sys2Proof.Machine

/-- A toggle inverts its cell and leaves the others alone. -/
theorem Display.cell_toggle (d : Display) (cx : Fin 64) (cy : Fin 32) (ex : Fin 64) (ey : Fin 32) :
    Display.cell (Display.toggle d cx cy) ex ey =
      if ex = cx ∧ ey = cy then !Display.cell d cx cy else Display.cell d ex ey := by
  simp only [Display.cell, Display.toggle, Vector.get_eq_getElem, Vector.getElem_set, Fin.ext_iff]
  by_cases hy : cy.val = ey.val
  · by_cases hx : cx.val = ex.val <;> simp [hy, hx, eq_comm]
  · simp [hy, eq_comm]

@[simp] theorem Display.cell_clear (cx : Fin 64) (cy : Fin 32) : Display.cell Display.clear cx cy = false := by
  simp [Display.cell, Display.clear, Vector.get_eq_getElem]

/-- Toggle a cell and note a collision: one targeted cell of the loop of `drawRows`. -/
def hitCell (d : Display × Bool) (p : Fin 64 × Fin 32) : Display × Bool :=
  (Display.toggle d.1 p.1 p.2, d.2 || Display.cell d.1 p.1 p.2)

/-- The cells that the set bits of sprite row `r` target. -/
def rowTargets (x0 y0 r : Nat) (b : Byte) : List (Fin 64 × Fin 32) :=
  ((List.range 8).filter (spriteBit b)).map fun c => (wrapCol (x0 + c), wrapRow (y0 + r))

/-- The cells that the set bits of rows from row `r` on target. -/
def targets (x0 y0 : Nat) : Nat → List Byte → List (Fin 64 × Fin 32)
  | _, [] => []
  | r, b :: rest => rowTargets x0 y0 r b ++ targets x0 y0 (r + 1) rest

theorem drawRow_eq_hits (x0 y0 r : Nat) (b : Byte) (d : Display × Bool) :
    drawRow x0 y0 r b d = (rowTargets x0 y0 r b).foldl hitCell d := by
  simp only [drawRow, rowTargets, List.foldl_map, List.foldl_filter]
  rfl

theorem drawRows_eq_hits (x0 y0 : Nat) : ∀ (rows : List Byte) (r : Nat) (d : Display × Bool),
    drawRows x0 y0 r rows d = (targets x0 y0 r rows).foldl hitCell d
  | [], _, _ => rfl
  | b :: rest, r, d => by
    rw [drawRows, targets, List.foldl_append, drawRows_eq_hits x0 y0 rest, drawRow_eq_hits]

theorem mem_rowTargets {x0 y0 r : Nat} {b : Byte} {p : Fin 64 × Fin 32} :
    p ∈ rowTargets x0 y0 r b ↔ ∃ c, c < 8 ∧ spriteBit b c = true ∧ p = (wrapCol (x0 + c), wrapRow (y0 + r)) := by
  simp only [rowTargets, List.mem_map, List.mem_filter, List.mem_range, and_assoc]
  exact exists_congr fun c => and_congr_right fun _ => and_congr_right fun _ => eq_comm

/-- A cell is targeted when some set bit of some row names it. -/
theorem mem_targets {x0 y0 : Nat} {p : Fin 64 × Fin 32} : ∀ {rows : List Byte} {r : Nat},
    p ∈ targets x0 y0 r rows ↔ ∃ k c, ∃ h : k < rows.length, c < 8 ∧ spriteBit rows[k] c = true ∧
      p = (wrapCol (x0 + c), wrapRow (y0 + (r + k)))
  | [], r => by simp [targets]
  | b :: rest, r => by
    rw [targets, List.mem_append, mem_rowTargets, mem_targets (rows := rest)]
    constructor
    · rintro (⟨c, hc, hb, hp⟩ | ⟨k, c, hk, hc, hb, hp⟩)
      · exact ⟨0, c, by simp, hc, hb, hp⟩
      · exact ⟨k + 1, c, by simpa using hk, hc, by simpa using hb, by rw [hp]; congr 3; omega⟩
    · rintro ⟨k, c, hk, hc, hb, hp⟩
      cases k with
      | zero => exact Or.inl ⟨c, hc, hb, hp⟩
      | succ k =>
        exact Or.inr ⟨k, c, by simpa using hk, hc, by simpa using hb, by rw [hp]; congr 3; omega⟩

theorem wrapCol_inj {x0 c c' : Nat} (hc : c < 8) (hc' : c' < 8) (h : wrapCol (x0 + c) = wrapCol (x0 + c')) : c = c' := by
  have := congrArg Fin.val h
  simp only [wrapCol] at this
  omega

/-- Rows less than 32 apart are different display rows. -/
theorem wrapRow_inj {y0 r r' : Nat} (h : wrapRow (y0 + r) = wrapRow (y0 + r')) (hlt : r < r') : r + 32 ≤ r' := by
  have := congrArg Fin.val h
  simp only [wrapRow] at this
  omega

/-- Up to 32 rows target no cell twice (45_display R161). -/
theorem targets_nodup (x0 y0 : Nat) : ∀ (rows : List Byte) (r : Nat), rows.length ≤ 32 → (targets x0 y0 r rows).Nodup
  | [], _, _ => List.nodup_nil
  | b :: rest, r, hl => by
    rw [List.length_cons] at hl
    rw [targets, List.nodup_append]
    refine ⟨?_, targets_nodup x0 y0 rest (r + 1) (by omega), ?_⟩
    · refine List.Nodup.map_on ?_ (List.nodup_range.filter _)
      intro c hc c' hc' h
      simp only [List.mem_filter, List.mem_range] at hc hc'
      exact wrapCol_inj hc.1 hc'.1 (congrArg Prod.fst h)
    · rintro p hp q hq rfl
      obtain ⟨c, -, -, h1⟩ := mem_rowTargets.1 hp
      obtain ⟨k, c', hk, -, -, h2⟩ := mem_targets.1 hq
      have := wrapRow_inj (congrArg Prod.snd (h1.symm.trans h2)) (by omega)
      omega

/-- Toggling distinct cells inverts each once, and the flag says whether one of them was 1 before. -/
theorem foldl_hitCell : ∀ (ps : List (Fin 64 × Fin 32)) (d : Display × Bool), ps.Nodup →
    (∀ cx cy, Display.cell (ps.foldl hitCell d).1 cx cy =
      (Display.cell d.1 cx cy ^^ decide ((cx, cy) ∈ ps))) ∧
    (ps.foldl hitCell d).2 = (d.2 || ps.any fun p => Display.cell d.1 p.1 p.2)
  | [], d, _ => by simp
  | p :: ps, d, h => by
    obtain ⟨hp, hps⟩ := List.nodup_cons.1 h
    obtain ⟨ih1, ih2⟩ := foldl_hitCell ps (hitCell d p) hps
    rw [List.foldl_cons]
    constructor
    · intro cx cy
      rw [ih1, hitCell, Display.cell_toggle]
      by_cases hc : cx = p.1 ∧ cy = p.2
      · have hcp : (cx, cy) = p := Prod.ext hc.1 hc.2
        rw [if_pos hc, hcp, hc.1, hc.2]
        simp [hp]
      · have hcp : (cx, cy) ≠ p := fun e => hc ⟨congrArg Prod.fst e, congrArg Prod.snd e⟩
        rw [if_neg hc]
        simp [hcp]
    · rw [ih2, List.any_cons, ← Bool.or_assoc]
      congr 1
      rw [Bool.eq_iff_iff, List.any_eq_true, List.any_eq_true]
      refine exists_congr fun q => and_congr_right fun hq => ?_
      have hqp : ¬(q.1 = p.1 ∧ q.2 = p.2) := fun e => hp (Prod.ext e.1 e.2 ▸ hq)
      rw [hitCell, Display.cell_toggle, if_neg hqp]

/-- The sprite loop, combinationally (45_display R167): each targeted cell is inverted, the others stay, and the flag
is the OR over the targeted cells' old values. -/
theorem drawRows_spec (x0 y0 : Nat) (rows : List Byte) (d : Display) (h : rows.length ≤ 32) :
    (∀ cx cy, Display.cell (drawRows x0 y0 0 rows (d, false)).1 cx cy =
      (Display.cell d cx cy ^^ decide ((cx, cy) ∈ targets x0 y0 0 rows))) ∧
    (drawRows x0 y0 0 rows (d, false)).2 = (targets x0 y0 0 rows).any fun p => Display.cell d p.1 p.2 := by
  rw [drawRows_eq_hits]
  simpa using foldl_hitCell (targets x0 y0 0 rows) (d, false) (targets_nodup x0 y0 rows 0 h)

/-- The edge check finds exactly a set bit whose target lies outside the grid (45_display R163). -/
theorem crossesEdge_iff {x0 y0 : Nat} : ∀ {rows : List Byte} {r : Nat},
    crossesEdge x0 y0 r rows = true ↔ ∃ k c, ∃ h : k < rows.length, c < 8 ∧ spriteBit rows[k] c = true ∧
      (x0 + c > 63 ∨ y0 + (r + k) > 31)
  | [], r => by simp [crossesEdge]
  | b :: rest, r => by
    rw [crossesEdge, Bool.or_eq_true, crossesEdge_iff (rows := rest), List.any_eq_true]
    constructor
    · rintro (⟨c, hc, hb⟩ | ⟨k, c, hk, hc, hb, hp⟩)
      · simp only [List.mem_range, Bool.and_eq_true, Bool.or_eq_true, decide_eq_true_eq] at hc hb
        exact ⟨0, c, by simp, hc, hb⟩
      · exact ⟨k + 1, c, by simpa using hk, hc, by simpa using hb, by omega⟩
    · rintro ⟨k, c, hk, hc, hb, hp⟩
      cases k with
      | zero =>
        refine Or.inl ⟨c, by simpa using hc, ?_⟩
        simp only [Bool.and_eq_true, Bool.or_eq_true, decide_eq_true_eq]
        exact ⟨hb, hp⟩
      | succ k => exact Or.inr ⟨k, c, by simpa using hk, hc, by simpa using hb, by omega⟩

end Sys2Proof.Machine
end

