-- ==== Sys2Proof/Laws/Encoding.lean ====
section
/-! SUPPORT. The packed words as numbers (30_encoding R83), and that the fields of a packed word are what was packed
(R71). -/

namespace Sys2Proof

/-- Appending is multiplying and adding. -/
theorem toNat_append_eq {v w : Nat} (a : BitVec v) (b : BitVec w) : (a ++ b).toNat = a.toNat * 2 ^ w + b.toNat := by
  rw [BitVec.toNat_append, ← Nat.shiftLeft_add_eq_or_of_lt b.isLt, Nat.shiftLeft_eq]

theorem packNNN_toNat (f : Nibble) (a : Addr12) : (packNNN f a).toNat = f.toNat * 4096 + a.toNat :=
  toNat_append_eq f a

theorem packXKK_toNat (f : Nibble) (x : Reg) (kk : Byte) :
    (packXKK f x kk).toNat = f.toNat * 4096 + x.val * 256 + kk.toNat := by
  rw [packXKK, toNat_append_eq, toNat_append_eq]
  change (f.toNat * 16 + x.val) * 256 + kk.toNat = _
  omega

theorem packXYN_toNat (f : Nibble) (x y : Reg) (n : Nibble) :
    (packXYN f x y n).toNat = f.toNat * 4096 + x.val * 256 + y.val * 16 + n.toNat := by
  rw [packXYN, toNat_append_eq, toNat_append_eq, toNat_append_eq]
  change ((f.toNat * 16 + x.val) * 16 + y.val) * 16 + n.toNat = _
  omega

/-! The fields of a word as numbers (R71). -/

theorem fieldFam_toNat (w : Word) : (fieldFam w).toNat = w.toNat / 4096 := by
  have := w.isLt
  simp only [fieldFam, BitVec.extractLsb'_toNat, Nat.shiftRight_eq_div_pow]
  omega

theorem fieldX_val (w : Word) : (fieldX w).val = w.toNat / 256 % 16 := by
  have h : (fieldX w).val = (w.extractLsb' 8 4).toNat := rfl
  rw [h, BitVec.extractLsb'_toNat, Nat.shiftRight_eq_div_pow]

theorem fieldY_val (w : Word) : (fieldY w).val = w.toNat / 16 % 16 := by
  have h : (fieldY w).val = (w.extractLsb' 4 4).toNat := rfl
  rw [h, BitVec.extractLsb'_toNat, Nat.shiftRight_eq_div_pow]

theorem fieldN_toNat (w : Word) : (fieldN w).toNat = w.toNat % 16 := by
  simp [fieldN, BitVec.extractLsb'_toNat]

theorem fieldKK_toNat (w : Word) : (fieldKK w).toNat = w.toNat % 256 := by
  simp [fieldKK, BitVec.extractLsb'_toNat]

theorem fieldNNN_toNat (w : Word) : (fieldNNN w).toNat = w.toNat % 4096 := by
  simp [fieldNNN, BitVec.extractLsb'_toNat]

/-! The fields of a packed word. -/

@[simp] theorem fieldFam_packNNN (f : Nibble) (a : Addr12) : fieldFam (packNNN f a) = f := by
  have := a.isLt
  apply BitVec.eq_of_toNat_eq
  rw [fieldFam_toNat, packNNN_toNat]
  omega

@[simp] theorem fieldNNN_packNNN (f : Nibble) (a : Addr12) : fieldNNN (packNNN f a) = a := by
  have := a.isLt
  apply BitVec.eq_of_toNat_eq
  rw [fieldNNN_toNat, packNNN_toNat]
  omega

@[simp] theorem fieldFam_packXKK (f : Nibble) (x : Reg) (kk : Byte) : fieldFam (packXKK f x kk) = f := by
  have := kk.isLt
  have := x.isLt
  apply BitVec.eq_of_toNat_eq
  rw [fieldFam_toNat, packXKK_toNat]
  omega

@[simp] theorem fieldX_packXKK (f : Nibble) (x : Reg) (kk : Byte) : fieldX (packXKK f x kk) = x := by
  have := kk.isLt
  have := x.isLt
  apply Fin.ext
  rw [fieldX_val, packXKK_toNat]
  omega

@[simp] theorem fieldKK_packXKK (f : Nibble) (x : Reg) (kk : Byte) : fieldKK (packXKK f x kk) = kk := by
  have := kk.isLt
  apply BitVec.eq_of_toNat_eq
  rw [fieldKK_toNat, packXKK_toNat]
  omega

@[simp] theorem fieldFam_packXYN (f : Nibble) (x y : Reg) (n : Nibble) : fieldFam (packXYN f x y n) = f := by
  have := n.isLt
  have := x.isLt
  have := y.isLt
  apply BitVec.eq_of_toNat_eq
  rw [fieldFam_toNat, packXYN_toNat]
  omega

@[simp] theorem fieldX_packXYN (f : Nibble) (x y : Reg) (n : Nibble) : fieldX (packXYN f x y n) = x := by
  have := n.isLt
  have := x.isLt
  have := y.isLt
  apply Fin.ext
  rw [fieldX_val, packXYN_toNat]
  omega

@[simp] theorem fieldY_packXYN (f : Nibble) (x y : Reg) (n : Nibble) : fieldY (packXYN f x y n) = y := by
  have := n.isLt
  have := y.isLt
  apply Fin.ext
  rw [fieldY_val, packXYN_toNat]
  omega

@[simp] theorem fieldN_packXYN (f : Nibble) (x y : Reg) (n : Nibble) : fieldN (packXYN f x y n) = n := by
  have := n.isLt
  apply BitVec.eq_of_toNat_eq
  rw [fieldN_toNat, packXYN_toNat]
  omega

end Sys2Proof
end

