-- ==== Sys2Proof/Laws/Memory.lean ====
section
/-! SUPPORT. Memory: a read gives the last write, other addresses keep their bytes, and every write keeps the
canonical form. -/

namespace Sys2Proof.Machine

@[simp] theorem Memory.read_nil (a : Nat) : Memory.read [] a = Memory.unlisted a := rfl

theorem Memory.read_cons (b : Nat) (w : Byte) (rest : Memory) (a : Nat) :
    Memory.read ((b, w) :: rest) a = if a = b then w else Memory.read rest a := rfl

theorem Memory.unlisted_above {a : Nat} (h : 80 ≤ a) : Memory.unlisted a = 0 := by
  simp [Memory.unlisted, Nat.not_lt.2 h]

/-- An unlisted address below every entry reads as unlisted. -/
theorem Memory.read_below : ∀ (m : Memory) {lo a : Nat}, Memory.wfFrom lo m = true → a < lo →
    m.read a = Memory.unlisted a
  | [], _, _, _, _ => rfl
  | (b, w) :: rest, lo, a, h, ha => by
    simp only [Memory.wfFrom, Bool.and_eq_true, decide_eq_true_eq] at h
    have hb : a ≠ b := by omega
    rw [Memory.read_cons, if_neg hb]
    exact Memory.read_below rest h.2 (by omega)

/-- The canonical form from an address is one from any lower address. -/
theorem Memory.wfFrom_mono {m : Memory} {lo lo' : Nat} (h : Memory.wfFrom lo m = true) (hl : lo' ≤ lo) :
    Memory.wfFrom lo' m = true := by
  cases m with
  | nil => rfl
  | cons e rest =>
    obtain ⟨b, w⟩ := e
    simp only [Memory.wfFrom, Bool.and_eq_true, decide_eq_true_eq] at h ⊢
    exact ⟨⟨⟨by omega, h.1.1.2⟩, h.1.2⟩, h.2⟩

theorem Memory.read_link_ne (a : Nat) (w : Byte) (rest : Memory) {b : Nat} (h : b ≠ a) :
    (Memory.link a w rest).read b = rest.read b := by
  unfold Memory.link
  split
  · rfl
  · rw [Memory.read_cons, if_neg h]

theorem Memory.read_link_self {a : Nat} {w : Byte} {rest : Memory} (h : rest.read a = Memory.unlisted a) :
    (Memory.link a w rest).read a = w := by
  unfold Memory.link
  split
  · next hw => rw [h, hw]
  · rw [Memory.read_cons, if_pos rfl]

/-- A write leaves every other address alone, whatever the list. -/
theorem Memory.read_write_ne : ∀ (m : Memory) (a : Nat) (w : Byte) {b : Nat}, b ≠ a →
    (m.write a w).read b = m.read b
  | [], a, w, _, h => Memory.read_link_ne a w [] h
  | (c, u) :: rest, a, w, b, h => by
    unfold Memory.write
    split
    · exact Memory.read_link_ne a w _ h
    · split
      · next hc => rw [Memory.read_link_ne a w rest h, Memory.read_cons, if_neg (hc ▸ h)]
      · rw [Memory.read_cons, Memory.read_cons, Memory.read_write_ne rest a w h]

theorem Memory.read_write_self_from : ∀ (m : Memory) {lo : Nat} (a : Nat) (w : Byte),
    Memory.wfFrom lo m = true → (m.write a w).read a = w
  | [], _, _, _, _ => Memory.read_link_self rfl
  | (c, u) :: rest, lo, a, w, h => by
    have hw := h
    simp only [Memory.wfFrom, Bool.and_eq_true, decide_eq_true_eq] at h
    unfold Memory.write
    split
    · next hlt =>
      refine Memory.read_link_self ?_
      rw [Memory.read_cons, if_neg (by omega)]
      exact Memory.read_below rest h.2 (by omega)
    · split
      · next hc => exact Memory.read_link_self (Memory.read_below rest h.2 (by omega))
      · next hne => rw [Memory.read_cons, if_neg hne, Memory.read_write_self_from rest a w h.2]

/-- A read of the address written gives the byte written. -/
theorem Memory.read_write_self {m : Memory} (h : m.wf = true) (a : Nat) (w : Byte) : (m.write a w).read a = w :=
  Memory.read_write_self_from m a w h

theorem Memory.wfFrom_link {lo a : Nat} {w : Byte} {rest : Memory} (hlo : lo ≤ a) (ha : a < 4096)
    (h : Memory.wfFrom (a + 1) rest = true) : Memory.wfFrom lo (Memory.link a w rest) = true := by
  unfold Memory.link
  split
  · exact Memory.wfFrom_mono h (by omega)
  · next hw => simp [Memory.wfFrom, hlo, ha, hw, h]

theorem Memory.wfFrom_write : ∀ (m : Memory) {lo a : Nat} {w : Byte}, Memory.wfFrom lo m = true → lo ≤ a → a < 4096 →
    Memory.wfFrom lo (m.write a w) = true
  | [], _, _, _, _, hlo, ha => Memory.wfFrom_link hlo ha rfl
  | (c, u) :: rest, lo, a, w, h, hlo, ha => by
    have hw := h
    simp only [Memory.wfFrom, Bool.and_eq_true, decide_eq_true_eq] at h
    unfold Memory.write
    split
    · next hlt =>
      refine Memory.wfFrom_link hlo ha ?_
      simp only [Memory.wfFrom, Bool.and_eq_true, decide_eq_true_eq]
      exact ⟨⟨⟨by omega, h.1.1.2⟩, h.1.2⟩, h.2⟩
    · split
      · next hc => exact Memory.wfFrom_link hlo ha (hc ▸ h.2)
      · next hge hne =>
        simp only [Memory.wfFrom, Bool.and_eq_true, decide_eq_true_eq]
        exact ⟨h.1, Memory.wfFrom_write rest h.2 (by omega) ha⟩

/-- A write within memory keeps the canonical form. -/
theorem Memory.wf_write {m : Memory} (h : m.wf = true) {a : Nat} (ha : a < 4096) (w : Byte) : (m.write a w).wf = true :=
  Memory.wfFrom_write m h (Nat.zero_le a) ha

/-- Writes of consecutive bytes within memory keep the canonical form. -/
theorem Memory.wf_writeList : ∀ (bs : List Byte) {m : Memory} {a : Nat}, m.wf = true → a + bs.length ≤ 4096 →
    (m.writeList a bs).wf = true
  | [], _, _, h, _ => h
  | b :: bs, m, a, h, hl => by
    rw [List.length_cons] at hl
    exact Memory.wf_writeList bs (Memory.wf_write h (by omega) b) (by omega)

/-- Writes of consecutive bytes leave every address outside them alone. -/
theorem Memory.read_writeList_outside : ∀ (bs : List Byte) (m : Memory) {a b : Nat}, (b < a ∨ a + bs.length ≤ b) →
    (m.writeList a bs).read b = m.read b
  | [], _, _, _, _ => rfl
  | c :: bs, m, a, b, h => by
    rw [List.length_cons] at h
    rw [Memory.writeList, Memory.read_writeList_outside bs _ (by omega), Memory.read_write_ne m a c (by omega)]

/-- Writes of consecutive bytes put the `k`-th byte at the `k`-th address. -/
theorem Memory.read_writeList_inside : ∀ (bs : List Byte) {m : Memory} {a k : Nat}, m.wf = true →
    a + bs.length ≤ 4096 → (hk : k < bs.length) → (m.writeList a bs).read (a + k) = bs[k]
  | c :: bs, m, a, 0, h, _, _ => by
    rw [Memory.writeList, Memory.read_writeList_outside bs (m.write a c) (a := a + 1) (b := a + 0) (by omega)]
    exact Memory.read_write_self h a c
  | c :: bs, m, a, k + 1, h, hl, hk => by
    rw [List.length_cons] at hl hk
    have h' := Memory.wf_write h (a := a) (by omega) c
    have := Memory.read_writeList_inside bs (a := a + 1) (k := k) h' (by omega) (by omega)
    rw [Memory.writeList, show a + (k + 1) = a + 1 + k by omega, this, List.getElem_cons_succ]

/-- Memory after reset is in its canonical form. -/
theorem State.reset_mem_wf : State.reset.mem.wf = true := rfl

/-- A store that succeeds keeps the canonical form. -/
theorem State.memWrite_wf {s t : State} {a : Nat} {bs : List Byte} (h : s.mem.wf = true)
    (e : s.memWrite a bs = .ok t) : t.mem.wf = true := by
  unfold State.memWrite at e
  split at e
  · next hb =>
    cases e
    cases bs with
    | nil => exact h
    | cons b rest =>
      refine Memory.wf_writeList _ h ?_
      simp only [inMemory, List.length_cons, Bool.or_eq_true, beq_iff_eq, decide_eq_true_eq] at hb ⊢
      omega
  · cases e

/-- Placing an instruction for the fetch keeps the canonical form. -/
theorem placeFetchWord_wf {s : State} (h : s.mem.wf = true) (nbits w : Nat) :
    (placeFetchWord s nbits w).mem.wf = true := by
  unfold placeFetchWord
  split
  · exact Memory.wf_writeList _ h (show 0x200 + 2 ≤ 4096 by decide)
  · exact Memory.wf_writeList _ h (by show s.pc.toNat + 2 ≤ 4096; omega)

end Sys2Proof.Machine
end

