-- ==== Sys2Proof/Laws/Ops.lean ====
section
/-! SUPPORT. For each shared operation, everything it can do. -/

namespace Sys2Proof.Machine

/-! ### Memory access -/

theorem inMemory_iff {a n : Nat} : inMemory a n = true ↔ n = 0 ∨ a + n - 1 ≤ 4095 := by
  simp [inMemory]

theorem State.memRead_ok {s : State} {a n : Nat} (h : inMemory a n = true) :
    s.memRead a n = .ok ((List.range n).map fun k => s.byteAt (a + k)) := by
  rw [State.memRead, if_pos h]

theorem State.memRead_error {s : State} {a n : Nat} (h : inMemory a n = false) :
    s.memRead a n = .error .outOfBounds := by
  rw [State.memRead, if_neg (by simp [h])]

theorem State.memWrite_ok {s : State} {a : Nat} {bs : List Byte} (h : inMemory a bs.length = true) :
    s.memWrite a bs = .ok (s.setMem (s.mem.writeList a bs)) := by
  rw [State.memWrite, if_pos h]

theorem State.memWrite_error {s : State} {a : Nat} {bs : List Byte} (h : inMemory a bs.length = false) :
    s.memWrite a bs = .error .outOfBounds := by
  rw [State.memWrite, if_neg (by simp [h])]

/-- A store at `I` either raises `OutOfBounds`, or writes its bytes and advances. -/
theorem State.storeAtI_cases (s : State) (bs : List Byte) :
    (inMemory s.i.toNat bs.length = true ∧
      s.storeAtI bs = .next (s.setMem (s.mem.writeList s.i.toNat bs)).advance) ∨
    (inMemory s.i.toNat bs.length = false ∧ s.storeAtI bs = .fault .outOfBounds) := by
  cases h : inMemory s.i.toNat bs.length
  · exact Or.inr ⟨rfl, by rw [State.storeAtI, State.dataAddr, Nat.add_zero, State.memWrite_error h]; rfl⟩
  · exact Or.inl ⟨rfl, by rw [State.storeAtI, State.dataAddr, Nat.add_zero, State.memWrite_ok h]⟩

@[simp] theorem State.regsUpTo_length (s : State) (x : Reg) : (s.regsUpTo x).length = x.val + 1 := by
  have := x.isLt
  simp only [State.regsUpTo, List.length_map, List.length_take, List.length_finRange]
  omega

theorem State.regsUpTo_getElem (s : State) (x : Reg) (k : Nat) (h : k < (s.regsUpTo x).length) :
    (s.regsUpTo x)[k] = s.reg ⟨k, by have := x.isLt; simp at h; omega⟩ := by
  simp [State.regsUpTo]

@[simp] theorem bcd_length (b : Byte) : (bcd b).length = 3 := rfl

/-! ### Loading registers -/

/-- Loading registers changes registers only. -/
theorem State.loadRegs_fields : ∀ (bs : List Byte) (s : State) (k : Nat),
    ∃ v, s.loadRegs k bs = { s with v := v }
  | [], s, _ => ⟨s.v, rfl⟩
  | b :: bs, s, k => by
    unfold State.loadRegs
    split
    · obtain ⟨v, h⟩ := State.loadRegs_fields bs (s.setReg ⟨k, ‹_›⟩ b) (k + 1)
      exact ⟨v, h⟩
    · exact ⟨s.v, rfl⟩

/-- Registers from `k` up hold the loaded bytes, the others what they held. -/
theorem State.loadRegs_reg : ∀ (bs : List Byte) (s : State) (k : Nat), k + bs.length ≤ 16 → ∀ r : Reg,
    (s.loadRegs k bs).reg r = if h : k ≤ r.val ∧ r.val - k < bs.length then bs[r.val - k] else s.reg r
  | [], s, k, _, r => by simp [State.loadRegs]
  | b :: bs, s, k, hl, r => by
    rw [List.length_cons] at hl
    have hk : k < 16 := by omega
    rw [State.loadRegs, dif_pos hk, State.loadRegs_reg bs _ _ (by omega), State.setReg_reg]
    by_cases h1 : r.val = k
    · have hr : r = ⟨k, hk⟩ := Fin.ext h1
      rw [dif_neg (by omega), if_pos hr, dif_pos ⟨by omega, by simp only [List.length_cons]; omega⟩]
      simp [h1]
    · have hr : r ≠ ⟨k, hk⟩ := fun e => h1 (congrArg Fin.val e)
      rw [if_neg hr]
      by_cases h2 : k + 1 ≤ r.val ∧ r.val - (k + 1) < bs.length
      · rw [dif_pos h2, dif_pos ⟨by omega, by simp only [List.length_cons]; omega⟩]
        have : r.val - k = (r.val - (k + 1)) + 1 := by omega
        simp only [this, List.getElem_cons_succ]
      · rw [dif_neg h2, dif_neg (by simp only [List.length_cons]; omega)]

/-! ### The stack -/

theorem State.push_full {s : State} (h : s.sp.val = 32) (w : Word) : s.push w = .error .stackOverflow := by
  rw [State.push, dif_neg (by omega)]

theorem State.push_ok {s : State} (h : s.sp.val < 32) (w : Word) :
    s.push w = .ok (s.setStack (s.stack.set s.sp.val w h) ⟨s.sp.val + 1, by omega⟩) := by
  rw [State.push, dif_pos h]

theorem State.pop_empty {s : State} (h : s.sp.val = 0) : s.pop = .error .stackUnderflow := by
  rw [State.pop, dif_neg (by omega)]

theorem State.pop_ok {s : State} (h : 0 < s.sp.val) :
    s.pop = .ok (s.stack.get ⟨s.sp.val - 1, by omega⟩, s.setStack s.stack ⟨s.sp.val - 1, by omega⟩) := by
  rw [State.pop, dif_pos h]

/-! ### Keys -/

theorem keyOfByte_some {b : Byte} {k : Reg} (h : b.toNat = k.val) : keyOfByte b = some k := by
  have hb : b.toNat < 16 := h ▸ k.isLt
  rw [keyOfByte, dif_pos hb]
  exact congrArg some (Fin.ext h)

theorem keyOfByte_none {b : Byte} (h : 15 < b.toNat) : keyOfByte b = none := by
  rw [keyOfByte, dif_neg (by omega)]

/-- A key query either raises `OutOfBounds`, or consumes its latch and skips by it. -/
theorem State.skipOnKey_cases (s : State) (x : Reg) (want : Bool) :
    (∃ k : Reg, (s.reg x).toNat = k.val ∧
      s.skipOnKey x want = .next ((s.setKey k false).skipIf (s.keyAt k == want))) ∨
    (15 < (s.reg x).toNat ∧ s.skipOnKey x want = .fault .outOfBounds) := by
  by_cases h : (s.reg x).toNat < 16
  · exact Or.inl ⟨⟨_, h⟩, rfl, by rw [State.skipOnKey, keyOfByte_some (k := ⟨_, h⟩) rfl]⟩
  · exact Or.inr ⟨by omega, by rw [State.skipOnKey, keyOfByte_none (by omega)]; rfl⟩

theorem State.leastKey_none {s : State} : s.leastKey = none ↔ ∀ k, s.keyAt k = false := by
  simp [State.leastKey]

/-- The least latched key. -/
theorem State.leastKey_some {s : State} {k : Reg} :
    s.leastKey = some k ↔ s.keyAt k = true ∧ ∀ j, j < k → s.keyAt j = false := by
  rw [State.leastKey, List.find?_eq_some_iff_getElem]
  constructor
  · rintro ⟨hk, i, hi, hik, hlt⟩
    simp at hik
    refine ⟨hk, fun j hj => ?_⟩
    have := hlt j.val (by subst hik; exact hj)
    simpa using this
  · rintro ⟨hk, hlt⟩
    refine ⟨hk, k.val, by simp, by simp, fun j hj => ?_⟩
    simpa using hlt ⟨j, by omega⟩ hj

/-! ### Fetch and step -/

theorem fetch_ok {s : State} (h : s.pc.toNat ≤ 4094) :
    fetch s = .ok (wordOfBytes (s.byteAt s.pc.toNat) (s.byteAt (s.pc.toNat + 1))) := by
  rw [fetch, if_neg (by omega)]

theorem fetch_error {s : State} (h : 4094 < s.pc.toNat) : fetch s = .error .outOfBounds := by
  rw [fetch, if_pos (by omega)]

/-- A step is `exec` of the decoded word where both bytes lie in memory, else the fetch error. -/
theorem step_cases (s : State) :
    (s.pc.toNat ≤ 4094 ∧
      step s = exec (decodeWord (wordOfBytes (s.byteAt s.pc.toNat) (s.byteAt (s.pc.toNat + 1)))) s) ∨
    (4094 < s.pc.toNat ∧ step s = .fault .outOfBounds) := by
  by_cases h : s.pc.toNat ≤ 4094
  · exact Or.inl ⟨h, by rw [step, fetch_ok h]⟩
  · exact Or.inr ⟨by omega, by rw [step, fetch_error (by omega)]; rfl⟩

/-- The big-endian word of two bytes (20_memory R53). -/
theorem wordOfBytes_toNat (hi lo : Byte) : (wordOfBytes hi lo).toNat = hi.toNat * 256 + lo.toNat := by
  have := lo.isLt
  simp only [wordOfBytes, BitVec.toNat_append]
  rw [← Nat.shiftLeft_add_eq_or_of_lt this, Nat.shiftLeft_eq]

end Sys2Proof.Machine
end

