-- ==== Sys2Proof/Laws/PerInstr.lean ====
section
/-! SUPPORT. Laws of each instruction as syntax, one lemma per constructor. Family `RowMatch`: the word of an
instruction matches the row of the opcode map that the instruction stands for (30_encoding R75, R83). -/

namespace Sys2Proof

theorem getLsbD_packNNN (f : Nibble) (a : Addr12) (i : Nat) :
    (packNNN f a).getLsbD i = if i < 12 then a.getLsbD i else f.getLsbD (i - 12) := by
  have h := BitVec.getLsbD_append (x := f) (y := a) (i := i)
  refine h.trans ?_
  by_cases hi : i < 12 <;> simp [hi]

theorem getLsbD_packXKK (f : Nibble) (x : Reg) (kk : Byte) (i : Nat) :
    (packXKK f x kk).getLsbD i =
      if i < 8 then kk.getLsbD i else if i < 12 then (BitVec.ofFin x : Nibble).getLsbD (i - 8) else f.getLsbD (i - 12) := by
  have h := BitVec.getLsbD_append (x := f ++ (BitVec.ofFin x : Nibble)) (y := kk) (i := i)
  have h' := BitVec.getLsbD_append (x := f) (y := (BitVec.ofFin x : Nibble)) (i := i - 8)
  refine h.trans ?_
  by_cases h8 : i < 8
  · simp [h8]
  · rw [h']
    by_cases h12 : i < 12
    · have : i - 8 < 4 := by omega
      simp [h8, h12, this]
    · have : ¬ i - 8 < 4 := by omega
      have e : i - 8 - 4 = i - 12 := by omega
      simp [h8, h12, this, e]

/-- Masking with 0xF000 keeps the family. -/
theorem mask_fam (w : Word) : w &&& 0xF000 = packNNN (fieldFam w) 0 := by
  apply BitVec.eq_of_getLsbD_eq
  intro i hi
  simp only [BitVec.getLsbD_and, getLsbD_packNNN, fieldFam, BitVec.getLsbD_extractLsb']
  interval_cases i <;> simp

/-- Masking with 0xF00F keeps the family and the low nibble. -/
theorem mask_famN (w : Word) : w &&& 0xF00F = packNNN (fieldFam w) ((fieldN w).setWidth 12) := by
  apply BitVec.eq_of_getLsbD_eq
  intro i hi
  simp only [BitVec.getLsbD_and, getLsbD_packNNN, fieldFam, fieldN, BitVec.getLsbD_extractLsb', BitVec.getLsbD_setWidth]
  interval_cases i <;> simp

/-- Masking with 0xF0FF keeps the family and the low byte. -/
theorem mask_famKK (w : Word) : w &&& 0xF0FF = packNNN (fieldFam w) ((fieldKK w).setWidth 12) := by
  apply BitVec.eq_of_getLsbD_eq
  intro i hi
  simp only [BitVec.getLsbD_and, getLsbD_packNNN, fieldFam, fieldKK, BitVec.getLsbD_extractLsb', BitVec.getLsbD_setWidth]
  interval_cases i <;> simp

/-- The row of the opcode map that an instruction stands for selects a word. -/
def Instr.rowMatches (i : Instr) (w : Word) : Bool :=
  match opcodeRows[i.rowOrder - 1]? with
  | some r => w &&& r.mask == r.value
  | none => false

/-- The word of an instruction matches its row. -/
def Laws.RowMatch.Statement (i : Instr) : Prop := i.rowMatches (encode i) = true

/-- A masked word that is the row's value matches the row. -/
theorem rowMatches_of_mask {i : Instr} {w m p : Word} (h : w &&& m = p)
    (hr : ∃ r, opcodeRows[i.rowOrder - 1]? = some r ∧ r.mask = m ∧ r.value = p) : i.rowMatches w = true := by
  obtain ⟨r, hrow, hm, hv⟩ := hr
  simp [Instr.rowMatches, hrow, hm, hv, h]

theorem Laws.RowMatch.cls : Laws.RowMatch.Statement .cls :=
  rfl

theorem Laws.RowMatch.ret : Laws.RowMatch.Statement .ret :=
  rfl

theorem Laws.RowMatch.sys (nnn : Addr12) : Laws.RowMatch.Statement (.sys nnn) :=
  rowMatches_of_mask (mask_fam _) ⟨_, rfl, rfl, by simp only [encode, fieldFam_packNNN]; decide⟩

theorem Laws.RowMatch.jp (nnn : Addr12) : Laws.RowMatch.Statement (.jp nnn) :=
  rowMatches_of_mask (mask_fam _) ⟨_, rfl, rfl, by simp only [encode, fieldFam_packNNN]; decide⟩

theorem Laws.RowMatch.call (nnn : Addr12) : Laws.RowMatch.Statement (.call nnn) :=
  rowMatches_of_mask (mask_fam _) ⟨_, rfl, rfl, by simp only [encode, fieldFam_packNNN]; decide⟩

theorem Laws.RowMatch.seImm (x : Reg) (kk : Byte) : Laws.RowMatch.Statement (.seImm x kk) :=
  rowMatches_of_mask (mask_fam _) ⟨_, rfl, rfl, by simp only [encode, fieldFam_packXKK]; decide⟩

theorem Laws.RowMatch.sneImm (x : Reg) (kk : Byte) : Laws.RowMatch.Statement (.sneImm x kk) :=
  rowMatches_of_mask (mask_fam _) ⟨_, rfl, rfl, by simp only [encode, fieldFam_packXKK]; decide⟩

theorem Laws.RowMatch.seReg (x y : Reg) (n : Nibble) : Laws.RowMatch.Statement (.seReg x y n) :=
  rowMatches_of_mask (mask_fam _) ⟨_, rfl, rfl, by simp only [encode, fieldFam_packXYN]; decide⟩

theorem Laws.RowMatch.ldImm (x : Reg) (kk : Byte) : Laws.RowMatch.Statement (.ldImm x kk) :=
  rowMatches_of_mask (mask_fam _) ⟨_, rfl, rfl, by simp only [encode, fieldFam_packXKK]; decide⟩

theorem Laws.RowMatch.addImm (x : Reg) (kk : Byte) : Laws.RowMatch.Statement (.addImm x kk) :=
  rowMatches_of_mask (mask_fam _) ⟨_, rfl, rfl, by simp only [encode, fieldFam_packXKK]; decide⟩

theorem Laws.RowMatch.ldReg (x y : Reg) : Laws.RowMatch.Statement (.ldReg x y) :=
  rowMatches_of_mask (mask_famN _) ⟨_, rfl, rfl, by simp only [encode, fieldFam_packXYN, fieldN_packXYN]; decide⟩

theorem Laws.RowMatch.orReg (x y : Reg) : Laws.RowMatch.Statement (.orReg x y) :=
  rowMatches_of_mask (mask_famN _) ⟨_, rfl, rfl, by simp only [encode, fieldFam_packXYN, fieldN_packXYN]; decide⟩

theorem Laws.RowMatch.andReg (x y : Reg) : Laws.RowMatch.Statement (.andReg x y) :=
  rowMatches_of_mask (mask_famN _) ⟨_, rfl, rfl, by simp only [encode, fieldFam_packXYN, fieldN_packXYN]; decide⟩

theorem Laws.RowMatch.xorReg (x y : Reg) : Laws.RowMatch.Statement (.xorReg x y) :=
  rowMatches_of_mask (mask_famN _) ⟨_, rfl, rfl, by simp only [encode, fieldFam_packXYN, fieldN_packXYN]; decide⟩

theorem Laws.RowMatch.addReg (x y : Reg) : Laws.RowMatch.Statement (.addReg x y) :=
  rowMatches_of_mask (mask_famN _) ⟨_, rfl, rfl, by simp only [encode, fieldFam_packXYN, fieldN_packXYN]; decide⟩

theorem Laws.RowMatch.subReg (x y : Reg) : Laws.RowMatch.Statement (.subReg x y) :=
  rowMatches_of_mask (mask_famN _) ⟨_, rfl, rfl, by simp only [encode, fieldFam_packXYN, fieldN_packXYN]; decide⟩

theorem Laws.RowMatch.shr (x y : Reg) : Laws.RowMatch.Statement (.shr x y) :=
  rowMatches_of_mask (mask_famN _) ⟨_, rfl, rfl, by simp only [encode, fieldFam_packXYN, fieldN_packXYN]; decide⟩

theorem Laws.RowMatch.subn (x y : Reg) : Laws.RowMatch.Statement (.subn x y) :=
  rowMatches_of_mask (mask_famN _) ⟨_, rfl, rfl, by simp only [encode, fieldFam_packXYN, fieldN_packXYN]; decide⟩

theorem Laws.RowMatch.shl (x y : Reg) : Laws.RowMatch.Statement (.shl x y) :=
  rowMatches_of_mask (mask_famN _) ⟨_, rfl, rfl, by simp only [encode, fieldFam_packXYN, fieldN_packXYN]; decide⟩

theorem Laws.RowMatch.unknown8 (x y : Reg) (n : Nibble) : Laws.RowMatch.Statement (.unknown8 x y n) :=
  rowMatches_of_mask (mask_fam _) ⟨_, rfl, rfl, by simp only [encode, fieldFam_packXYN]; decide⟩

theorem Laws.RowMatch.sneReg (x y : Reg) (n : Nibble) : Laws.RowMatch.Statement (.sneReg x y n) :=
  rowMatches_of_mask (mask_fam _) ⟨_, rfl, rfl, by simp only [encode, fieldFam_packXYN]; decide⟩

theorem Laws.RowMatch.ldI (nnn : Addr12) : Laws.RowMatch.Statement (.ldI nnn) :=
  rowMatches_of_mask (mask_fam _) ⟨_, rfl, rfl, by simp only [encode, fieldFam_packNNN]; decide⟩

theorem Laws.RowMatch.jpV0 (nnn : Addr12) : Laws.RowMatch.Statement (.jpV0 nnn) :=
  rowMatches_of_mask (mask_fam _) ⟨_, rfl, rfl, by simp only [encode, fieldFam_packNNN]; decide⟩

theorem Laws.RowMatch.rnd (x : Reg) (kk : Byte) : Laws.RowMatch.Statement (.rnd x kk) :=
  rowMatches_of_mask (mask_fam _) ⟨_, rfl, rfl, by simp only [encode, fieldFam_packXKK]; decide⟩

theorem Laws.RowMatch.drw (x y : Reg) (n : Nibble) : Laws.RowMatch.Statement (.drw x y n) :=
  rowMatches_of_mask (mask_fam _) ⟨_, rfl, rfl, by simp only [encode, fieldFam_packXYN]; decide⟩

theorem Laws.RowMatch.skp (x : Reg) : Laws.RowMatch.Statement (.skp x) :=
  rowMatches_of_mask (mask_famKK _) ⟨_, rfl, rfl, by simp only [encode, fieldFam_packXKK, fieldKK_packXKK]; decide⟩

theorem Laws.RowMatch.sknp (x : Reg) : Laws.RowMatch.Statement (.sknp x) :=
  rowMatches_of_mask (mask_famKK _) ⟨_, rfl, rfl, by simp only [encode, fieldFam_packXKK, fieldKK_packXKK]; decide⟩

theorem Laws.RowMatch.unknownE (x : Reg) (kk : Byte) : Laws.RowMatch.Statement (.unknownE x kk) :=
  rowMatches_of_mask (mask_fam _) ⟨_, rfl, rfl, by simp only [encode, fieldFam_packXKK]; decide⟩

theorem Laws.RowMatch.ldVxDT (x : Reg) : Laws.RowMatch.Statement (.ldVxDT x) :=
  rowMatches_of_mask (mask_famKK _) ⟨_, rfl, rfl, by simp only [encode, fieldFam_packXKK, fieldKK_packXKK]; decide⟩

theorem Laws.RowMatch.ldVxK (x : Reg) : Laws.RowMatch.Statement (.ldVxK x) :=
  rowMatches_of_mask (mask_famKK _) ⟨_, rfl, rfl, by simp only [encode, fieldFam_packXKK, fieldKK_packXKK]; decide⟩

theorem Laws.RowMatch.ldDTVx (x : Reg) : Laws.RowMatch.Statement (.ldDTVx x) :=
  rowMatches_of_mask (mask_famKK _) ⟨_, rfl, rfl, by simp only [encode, fieldFam_packXKK, fieldKK_packXKK]; decide⟩

theorem Laws.RowMatch.ldSTVx (x : Reg) : Laws.RowMatch.Statement (.ldSTVx x) :=
  rowMatches_of_mask (mask_famKK _) ⟨_, rfl, rfl, by simp only [encode, fieldFam_packXKK, fieldKK_packXKK]; decide⟩

theorem Laws.RowMatch.addIVx (x : Reg) : Laws.RowMatch.Statement (.addIVx x) :=
  rowMatches_of_mask (mask_famKK _) ⟨_, rfl, rfl, by simp only [encode, fieldFam_packXKK, fieldKK_packXKK]; decide⟩

theorem Laws.RowMatch.ldF (x : Reg) : Laws.RowMatch.Statement (.ldF x) :=
  rowMatches_of_mask (mask_famKK _) ⟨_, rfl, rfl, by simp only [encode, fieldFam_packXKK, fieldKK_packXKK]; decide⟩

theorem Laws.RowMatch.ldB (x : Reg) : Laws.RowMatch.Statement (.ldB x) :=
  rowMatches_of_mask (mask_famKK _) ⟨_, rfl, rfl, by simp only [encode, fieldFam_packXKK, fieldKK_packXKK]; decide⟩

theorem Laws.RowMatch.ldIVx (x : Reg) : Laws.RowMatch.Statement (.ldIVx x) :=
  rowMatches_of_mask (mask_famKK _) ⟨_, rfl, rfl, by simp only [encode, fieldFam_packXKK, fieldKK_packXKK]; decide⟩

theorem Laws.RowMatch.ldVxI (x : Reg) : Laws.RowMatch.Statement (.ldVxI x) :=
  rowMatches_of_mask (mask_famKK _) ⟨_, rfl, rfl, by simp only [encode, fieldFam_packXKK, fieldKK_packXKK]; decide⟩

theorem Laws.RowMatch.unknownF (x : Reg) (kk : Byte) : Laws.RowMatch.Statement (.unknownF x kk) :=
  rowMatches_of_mask (mask_fam _) ⟨_, rfl, rfl, by simp only [encode, fieldFam_packXKK]; decide⟩

end Sys2Proof
end

