-- ==== Sys2Proof/Laws/Run.lean ====
section
/-! SUPPORT. Several steps in a row, in the model's own step and state. -/

namespace Sys2Proof.Machine

/-- No step leaves the state as it is. -/
theorem core_run_zero (s : State) : core.run 0 s = .next s := rfl

theorem core_run_next {k : Nat} {s t : State} (h : step s = .next t) : core.run (k + 1) s = core.run k t := by
  have hc : core.step s = .next t := h
  simp only [Host.Core.run, hc]

theorem core_run_fault {k : Nat} {s : State} {f : Fault} (h : step s = .fault f) : core.run (k + 1) s = .fault f := by
  have hc : core.step s = .fault f := h
  simp only [Host.Core.run, hc]

theorem core_run_refused {k : Nat} {s : State} {r : Refusal} (h : step s = .refused r) :
    core.run (k + 1) s = .refused r := by
  have hc : core.step s = .refused r := h
  simp only [Host.Core.run, hc]

/-- A run of one step more is the run after that step. -/
theorem core_run_succ (k : Nat) (s : State) :
    core.run (k + 1) s = match step s with
      | .next t => core.run k t
      | .fault f => .fault f
      | .refused r => .refused r := by
  cases h : step s with
  | next t => exact core_run_next h
  | fault f => exact core_run_fault h
  | refused r => exact core_run_refused h

end Sys2Proof.Machine
end

