-- ==== Sys2Proof/Tests/Slice0.lean ====
section
/-! SUPPORT. The model's own tests. Expected values are the spec's: the encodings of 30_encoding R75 written out bit by
bit, and the vectors of 95_test_vectors (their ids in the docstrings). After them, for every statement with hypotheses,
a state and operands that meet them. -/

namespace Sys2Proof.Tests

open Sys2Proof Sys2Proof.Machine

/-! ### Helpers -/

/-- The state after reset with `pc` at the entry point. -/
def start : State := State.reset.setPc 0x200

/-- Registers given by number and value. -/
def withRegs (s : State) : List (Reg × Byte) → State
  | [] => s
  | (r, b) :: rest => withRegs (s.setReg r b) rest

/-- Bytes in memory from an address. -/
def withBytes (s : State) (a : Nat) (bs : List Byte) : State := s.setMem (s.mem.writeList a bs)

/-- `sp` with the cells as given. -/
def withStack (s : State) (cell : Word) (depth : Fin 33) : State := s.setStack (Vector.replicate 32 cell) depth

/-- One lit cell more. -/
def withCell (s : State) (cx : Fin 64) (cy : Fin 32) : State := s.setDisp (Display.toggle s.disp cx cy)

/-- The same machine under `DRAW_EDGE = reject`. -/
def rejecting (s : State) : State := { s with cfg := { s.cfg with drawEdge := .reject } }

/-- One step with a word placed at `pc`. -/
def stepOn (s : State) (word : Nat) : Result := step (s.withFetchWord 16 word)

/-- The result is a next state that passes a test. -/
def nextIs (r : Result) (p : State → Bool) : Bool :=
  match r with
  | .next t => p t
  | _ => false

/-- The result is a given fault. -/
def faultIs (r : Result) (f : Fault) : Bool :=
  match r with
  | .fault g => g == f
  | _ => false

/-- The cells of row `cy` that are lit. -/
def litRow (s : State) (cy : Fin 32) : List (Fin 64) := (List.finRange 64).filter fun cx => s.pixel cx cy

/-! ### Well-formedness: a term that each check refuses -/

theorem test_wf_sys_cls : Instr.wf (.sys 0x0E0) = false := by decide
theorem test_wf_sys_ret : Instr.wf (.sys 0x0EE) = false := by decide
theorem test_wf_sys : Instr.wf (.sys 0x0E1) = true := by decide
theorem test_wf_unknown8 : Instr.wf (.unknown8 1 2 4) = false := by decide
theorem test_wf_unknown8_last : Instr.wf (.unknown8 1 2 0xE) = false := by decide
theorem test_wf_unknown8_ok : Instr.wf (.unknown8 1 2 0xF) = true := by decide
theorem test_wf_unknownE : Instr.wf (.unknownE 0 0x9E) = false := by decide
theorem test_wf_unknownE_last : Instr.wf (.unknownE 0 0xA1) = false := by decide
theorem test_wf_unknownE_ok : Instr.wf (.unknownE 0 0x9F) = true := by decide
theorem test_wf_unknownF : Instr.wf (.unknownF 0 0x0A) = false := by decide
theorem test_wf_unknownF_last : Instr.wf (.unknownF 0 0x65) = false := by decide
theorem test_wf_unknownF_ok : Instr.wf (.unknownF 0 0x90) = true := by decide

/-! ### Decoding and encoding: one word per constructor, its bits written from the spec's encoding -/

theorem test_decode_cls : decodeWord 0b0000000011100000 = .cls ∧ encode (.cls) = 0b0000000011100000 := by decide
theorem test_decode_ret : decodeWord 0b0000000011101110 = .ret ∧ encode (.ret) = 0b0000000011101110 := by decide
theorem test_decode_sys : decodeWord 0b0000000100100011 = .sys 0x123 ∧ encode (.sys 0x123) = 0b0000000100100011 := by decide
theorem test_decode_jp : decodeWord 0b0001101010111100 = .jp 0xABC ∧ encode (.jp 0xABC) = 0b0001101010111100 := by decide
theorem test_decode_call : decodeWord 0b0010001101000101 = .call 0x345 ∧ encode (.call 0x345) = 0b0010001101000101 := by decide
theorem test_decode_seImm : decodeWord 0b0011101001000010 = .seImm 0xA 0x42 ∧ encode (.seImm 0xA 0x42) = 0b0011101001000010 := by decide
theorem test_decode_sneImm : decodeWord 0b0100101100100100 = .sneImm 0xB 0x24 ∧ encode (.sneImm 0xB 0x24) = 0b0100101100100100 := by decide
theorem test_decode_seReg : decodeWord 0b0101101010110111 = .seReg 0xA 0xB 7 ∧ encode (.seReg 0xA 0xB 7) = 0b0101101010110111 := by decide
theorem test_decode_ldImm : decodeWord 0b0110011011101010 = .ldImm 6 0xEA ∧ encode (.ldImm 6 0xEA) = 0b0110011011101010 := by decide
theorem test_decode_addImm : decodeWord 0b0111000111111110 = .addImm 1 0xFE ∧ encode (.addImm 1 0xFE) = 0b0111000111111110 := by decide
theorem test_decode_ldReg : decodeWord 0b1000000100100000 = .ldReg 1 2 ∧ encode (.ldReg 1 2) = 0b1000000100100000 := by decide
theorem test_decode_orReg : decodeWord 0b1000001101000001 = .orReg 3 4 ∧ encode (.orReg 3 4) = 0b1000001101000001 := by decide
theorem test_decode_andReg : decodeWord 0b1000010101100010 = .andReg 5 6 ∧ encode (.andReg 5 6) = 0b1000010101100010 := by decide
theorem test_decode_xorReg : decodeWord 0b1000011110000011 = .xorReg 7 8 ∧ encode (.xorReg 7 8) = 0b1000011110000011 := by decide
theorem test_decode_addReg : decodeWord 0b1000100110100100 = .addReg 9 0xA ∧ encode (.addReg 9 0xA) = 0b1000100110100100 := by decide
theorem test_decode_subReg : decodeWord 0b1000101111000101 = .subReg 0xB 0xC ∧ encode (.subReg 0xB 0xC) = 0b1000101111000101 := by decide
theorem test_decode_shr : decodeWord 0b1000110111100110 = .shr 0xD 0xE ∧ encode (.shr 0xD 0xE) = 0b1000110111100110 := by decide
theorem test_decode_subn : decodeWord 0b1000111100000111 = .subn 0xF 0 ∧ encode (.subn 0xF 0) = 0b1000111100000111 := by decide
theorem test_decode_shl : decodeWord 0b1000000111111110 = .shl 1 0xF ∧ encode (.shl 1 0xF) = 0b1000000111111110 := by decide
theorem test_decode_unknown8 : decodeWord 0b1000101010111000 = .unknown8 0xA 0xB 8 ∧ encode (.unknown8 0xA 0xB 8) = 0b1000101010111000 := by decide
theorem test_decode_sneReg : decodeWord 0b1001110011011110 = .sneReg 0xC 0xD 0xE ∧ encode (.sneReg 0xC 0xD 0xE) = 0b1001110011011110 := by decide
theorem test_decode_ldI : decodeWord 0b1010001100000000 = .ldI 0x300 ∧ encode (.ldI 0x300) = 0b1010001100000000 := by decide
theorem test_decode_jpV0 : decodeWord 0b1011111111111111 = .jpV0 0xFFF ∧ encode (.jpV0 0xFFF) = 0b1011111111111111 := by decide
theorem test_decode_rnd : decodeWord 0b1100001100001111 = .rnd 3 0x0F ∧ encode (.rnd 3 0x0F) = 0b1100001100001111 := by decide
theorem test_decode_drw : decodeWord 0b1101000100100101 = .drw 1 2 5 ∧ encode (.drw 1 2 5) = 0b1101000100100101 := by decide
theorem test_decode_skp : decodeWord 0b1110010010011110 = .skp 4 ∧ encode (.skp 4) = 0b1110010010011110 := by decide
theorem test_decode_sknp : decodeWord 0b1110010110100001 = .sknp 5 ∧ encode (.sknp 5) = 0b1110010110100001 := by decide
theorem test_decode_unknownE : decodeWord 0b1110000110011111 = .unknownE 1 0x9F ∧ encode (.unknownE 1 0x9F) = 0b1110000110011111 := by decide
theorem test_decode_ldVxDT : decodeWord 0b1111001000000111 = .ldVxDT 2 ∧ encode (.ldVxDT 2) = 0b1111001000000111 := by decide
theorem test_decode_ldVxK : decodeWord 0b1111000100001010 = .ldVxK 1 ∧ encode (.ldVxK 1) = 0b1111000100001010 := by decide
theorem test_decode_ldDTVx : decodeWord 0b1111001100010101 = .ldDTVx 3 ∧ encode (.ldDTVx 3) = 0b1111001100010101 := by decide
theorem test_decode_ldSTVx : decodeWord 0b1111010000011000 = .ldSTVx 4 ∧ encode (.ldSTVx 4) = 0b1111010000011000 := by decide
theorem test_decode_addIVx : decodeWord 0b1111010100011110 = .addIVx 5 ∧ encode (.addIVx 5) = 0b1111010100011110 := by decide
theorem test_decode_ldF : decodeWord 0b1111011000101001 = .ldF 6 ∧ encode (.ldF 6) = 0b1111011000101001 := by decide
theorem test_decode_ldB : decodeWord 0b1111011100110011 = .ldB 7 ∧ encode (.ldB 7) = 0b1111011100110011 := by decide
theorem test_decode_ldIVx : decodeWord 0b1111100001010101 = .ldIVx 8 ∧ encode (.ldIVx 8) = 0b1111100001010101 := by decide
theorem test_decode_ldVxI : decodeWord 0b1111111101100101 = .ldVxI 0xF ∧ encode (.ldVxI 0xF) = 0b1111111101100101 := by decide
theorem test_decode_unknownF : decodeWord 0b1111000010010000 = .unknownF 0 0x90 ∧ encode (.unknownF 0 0x90) = 0b1111000010010000 := by decide

/-- Two bytes are needed. -/
theorem test_decode_no_bytes : decodeBytes [] = .error .tooFewBytes := rfl
theorem test_decode_one_byte : decodeBytes [0x12] = .error .tooFewBytes := rfl

/-- The first byte in memory is the high one, and the bytes after are left (20_memory R53). -/
theorem test_decode_bytes : decodeBytes [0x1A, 0xBC, 0x55] = .ok (.jp 0xABC, [0x55]) := rfl
theorem test_decode_table_word : decodeTableWord 16 0x8AB4 = some (.addReg 0xA 0xB) := by decide
theorem test_decode_table_word_long : decodeTableWord 17 0 = none := by decide

/-- A word placed for the fetch right after reset is what the first step runs. -/
theorem test_fetch_word_at_reset : nextIs (step (State.reset.withFetchWord 16 0x6A01))
    (fun t => t.reg 0xA == 1 && t.pc == 2) = true := by decide

/-! ### One step per instruction (95_test_vectors) -/

/-- F1. -/
theorem test_sys : nextIs (stepOn (start) 0x0123) (fun t => t.pc == 0x202 && t == { (start.withFetchWord 16 0x0123) with pc := 0x202 }) = true := by decide

/-- F4. -/
theorem test_jp : nextIs (stepOn (start) 0x1ABC) (fun t => t.pc == 0xABC) = true := by decide

/-- F9. -/
theorem test_call_at_top : nextIs (stepOn (start.setPc 0xFFE) 0x2300) (fun t => t.stack.get 0 == 0x1000 && t.sp == 1 && t.pc == 0x300) = true := by decide

/-- F8. -/
theorem test_call_full : faultIs (stepOn (withStack start 0 32) 0x2300) .stackOverflow = true := by decide

/-- F10. -/
theorem test_ret : nextIs (stepOn (withStack start 0x202 1) 0x00EE) (fun t => t.sp == 0 && t.pc == 0x202) = true := by decide

/-- F11. -/
theorem test_ret_empty : faultIs (stepOn (start) 0x00EE) .stackUnderflow = true := by decide

/-- F13. -/
theorem test_jpV0_wide : nextIs (stepOn (withRegs start [(0, 0xFF)]) 0xBFFF) (fun t => t.pc == 0x10FE) = true := by decide

/-- F14: no word at 0xFFF is fetched. -/
theorem test_fetch_past_end : faultIs (step (start.setPc 0xFFF)) .outOfBounds = true := by decide

/-- F5: an odd `pc` fetches the two bytes there. -/
theorem test_fetch_odd : nextIs (step (withBytes (start.setPc 0x201) 0x200 [0xFF, 0x61, 0x23, 0xFF]))
    (fun t => t.reg 1 == 0x23 && t.pc == 0x203) = true := by decide

/-- K1. -/
theorem test_seImm : nextIs (stepOn (withRegs start [(10, 0x42)]) 0x3A42) (fun t => t.pc == 0x204) = true := by decide

/-- K3. -/
theorem test_sneImm : nextIs (stepOn (withRegs start [(10, 0x42)]) 0x4A42) (fun t => t.pc == 0x202) = true := by decide

/-- K8. -/
theorem test_seReg_low_nibble : nextIs (stepOn (withRegs start [(10, 9), (11, 9)]) 0x5AB7) (fun t => t.pc == 0x204) = true := by decide

/-- K6. -/
theorem test_seReg_not : nextIs (stepOn (withRegs start [(10, 9), (11, 10)]) 0x5AB0) (fun t => t.pc == 0x202) = true := by decide

/-- K9. -/
theorem test_sneReg : nextIs (stepOn (withRegs start [(10, 9), (11, 10)]) 0x9AB0) (fun t => t.pc == 0x204) = true := by decide

/-- K11. -/
theorem test_sneReg_same : nextIs (stepOn (withRegs start [(10, 9)]) 0x9AA0) (fun t => t.pc == 0x202) = true := by decide

/-- I2. -/
theorem test_ldImm_vf : nextIs (stepOn (start) 0x6FFF) (fun t => t.reg vf == 0xFF && t.pc == 0x202) = true := by decide

/-- I4. -/
theorem test_addImm_wraps : nextIs (stepOn (withRegs start [(0, 5), (15, 1)]) 0x70FF) (fun t => t.reg 0 == 4 && t.reg vf == 1) = true := by decide

/-- I5. -/
theorem test_addImm_vf : nextIs (stepOn (withRegs start [(15, 0xFF)]) 0x7F02) (fun t => t.reg vf == 1) = true := by decide

/-- I6, I7: whatever the draw, the mask holds and the next draw is another one. -/
theorem test_rnd_mask : ∃ t, exec (.rnd 3 0) start = .next t ∧ t.reg 3 = 0 ∧ t.draws = 1 :=
  ⟨_, rfl, by simp, rfl⟩

/-- I8. -/
theorem test_rnd_all : ∃ t, exec (.rnd 3 0xFF) start = .next t ∧ t.reg 3 = Config.randomByte 0 :=
  ⟨_, rfl, (State.setReg_reg ..).trans ((if_pos rfl).trans BitVec.and_allOnes)⟩

/-- A1. -/
theorem test_ldReg : nextIs (stepOn (withRegs start [(2, 0x3C), (15, 1)]) 0x8120) (fun t => t.reg 1 == 0x3C && t.reg vf == 1) = true := by decide

/-- A2. -/
theorem test_orReg : nextIs (stepOn (withRegs start [(1, 0xF0), (2, 0x0F), (15, 1)]) 0x8121) (fun t => t.reg 1 == 0xFF && t.reg vf == 1) = true := by decide

/-- A3. -/
theorem test_andReg : nextIs (stepOn (withRegs start [(1, 0xF0), (2, 0x3C)]) 0x8122) (fun t => t.reg 1 == 0x30 && t.reg vf == 0) = true := by decide

/-- A4. -/
theorem test_xorReg : nextIs (stepOn (withRegs start [(1, 0xF0), (2, 0x3C)]) 0x8123) (fun t => t.reg 1 == 0xCC && t.reg vf == 0) = true := by decide

/-- E2a. -/
theorem test_addReg : nextIs (stepOn (withRegs start [(1, 0xFF), (2, 1)]) 0x8124) (fun t => t.reg 1 == 0 && t.reg vf == 1 && t.pc == 0x202) = true := by decide

/-- A7. -/
theorem test_addReg_into_vf : nextIs (stepOn (withRegs start [(15, 0xFF), (0, 1)]) 0x8F04) (fun t => t.reg vf == 1) = true := by decide

/-- E3a. -/
theorem test_subReg : nextIs (stepOn (withRegs start [(1, 1), (2, 2)]) 0x8125) (fun t => t.reg 1 == 0xFF && t.reg vf == 0) = true := by decide

/-- A11. -/
theorem test_subReg_equal : nextIs (stepOn (withRegs start [(1, 7), (2, 7)]) 0x8125) (fun t => t.reg 1 == 0 && t.reg vf == 1) = true := by decide

/-- A14. -/
theorem test_subn : nextIs (stepOn (withRegs start [(1, 2), (2, 5)]) 0x8127) (fun t => t.reg 1 == 3 && t.reg vf == 1) = true := by decide

/-- A15. -/
theorem test_subn_borrow : nextIs (stepOn (withRegs start [(1, 5), (2, 2)]) 0x8127) (fun t => t.reg 1 == 0xFD && t.reg vf == 0) = true := by decide

/-- A18. -/
theorem test_shr_ignores_y : nextIs (stepOn (withRegs start [(1, 0xFF), (2, 0)]) 0x8126) (fun t => t.reg 1 == 0x7F && t.reg vf == 1 && t.reg 2 == 0) = true := by decide

/-- A19. -/
theorem test_shr_vf : nextIs (stepOn (withRegs start [(15, 0xFF)]) 0x8F06) (fun t => t.reg vf == 0) = true := by decide

/-- A21. -/
theorem test_shl : nextIs (stepOn (withRegs start [(1, 0x81)]) 0x810E) (fun t => t.reg 1 == 2 && t.reg vf == 1) = true := by decide

/-- A23. -/
theorem test_shl_vf : nextIs (stepOn (withRegs start [(15, 0x80)]) 0x8F0E) (fun t => t.reg vf == 2) = true := by decide

/-- A25. -/
theorem test_unknown8 : faultIs (stepOn (start) 0x8AB8) .invalidOpcode = true := by decide

/-- M2. -/
theorem test_ldI : nextIs (stepOn (start) 0xAFFF) (fun t => t.i == 0xFFF && t.pc == 0x202) = true := by decide

/-- M4. -/
theorem test_addIVx_no_flag : nextIs (stepOn ((withRegs start [(2, 1)]).setI 0xFFF) 0xF21E) (fun t => t.i == 0x1000 && t.reg vf == 0) = true := by decide

/-- M5. -/
theorem test_addIVx_wraps : nextIs (stepOn ((withRegs start [(2, 1)]).setI 0xFFFF) 0xF21E) (fun t => t.i == 0) = true := by decide

/-- M7. -/
theorem test_ldF_whole_byte : nextIs (stepOn (withRegs start [(0, 0xFF)]) 0xF029) (fun t => t.i == 0x4FB) = true := by decide

/-- M8. -/
theorem test_ldB : nextIs (stepOn ((withRegs start [(0, 0xEA)]).setI 0x300) 0xF033) (fun t => t.byteAt 0x300 == 2 && t.byteAt 0x301 == 3 && t.byteAt 0x302 == 4 && t.i == 0x300) = true := by decide

/-- M12. -/
theorem test_ldB_past_end : faultIs (stepOn (start.setI 0xFFE) 0xF033) .outOfBounds = true := by decide

/-- M13. -/
theorem test_ldIVx : nextIs (stepOn ((withBytes (withRegs start [(0, 0x12), (1, 8)]) 0x302 [0x77]).setI 0x300) 0xF155) (fun t => t.byteAt 0x300 == 0x12 && t.byteAt 0x301 == 8 && t.byteAt 0x302 == 0x77 && t.i == 0x300) = true := by decide

/-- M15. -/
theorem test_ldIVx_past_end : faultIs (stepOn (start.setI 0xFF1) 0xFF55) .outOfBounds = true := by decide

/-- M17. -/
theorem test_ldVxI : nextIs (stepOn ((withBytes (withRegs start [(3, 0x77)]) 0x300 [2, 3, 4]).setI 0x300) 0xF265) (fun t => t.reg 0 == 2 && t.reg 1 == 3 && t.reg 2 == 4 && t.reg 3 == 0x77 && t.i == 0x300) = true := by decide

/-- M18. -/
theorem test_ldVxI_font : nextIs (stepOn (start) 0xFF65) (fun t => t.v.toList == [0xF0, 0x90, 0x90, 0x90, 0xF0, 0x20, 0x60, 0x20, 0x20, 0x70, 0xF0, 0x10, 0xF0, 0x80, 0xF0, 0xF0]) = true := by decide

/-- G13. -/
theorem test_cls : nextIs (stepOn (withCell (withRegs start [(15, 1)]) 10 5) 0x00E0) (fun t => litRow t 5 == [] && t.reg vf == 1) = true := by decide

/-- G14's registers and sprite: two rows at the corner. -/
def corner : State := (withBytes (withRegs start [(0, 62), (1, 31)]) 0x300 [0xC0, 0x81]).setI 0x300

/-- G14. -/
theorem test_drw_wraps : nextIs (stepOn (corner) 0xD012) (fun t => litRow t 31 == [62, 63] && litRow t 0 == [5, 62] && t.reg vf == 0) = true := by decide

/-- G14's sprite under `reject` (P3). -/
theorem test_drw_rejects : faultIs (stepOn (rejecting corner) 0xD012) .outOfBounds = true := by decide

/-- G7's registers and sprite: two rows of one cell, the first lit before. -/
def column : State := withCell ((withBytes (withRegs start [(0, 10), (1, 5)]) 0x300 [0x80, 0x80]).setI 0x300) 10 5

/-- G7. -/
theorem test_drw_collides : nextIs (stepOn (column) 0xD012) (fun t => litRow t 5 == [] && litRow t 6 == [10] && t.reg vf == 1) = true := by decide

/-- G11. -/
theorem test_drw_latches_vf : nextIs (stepOn ((withBytes (withRegs start [(15, 7), (1, 2)]) 0x300 [0x80]).setI 0x300) 0xDF11) (fun t => litRow t 2 == [7] && t.reg vf == 0) = true := by decide

/-- G8. -/
theorem test_drw_no_rows : nextIs (stepOn ((withRegs start [(15, 9)]).setI 0xFFFF) 0xD010) (fun t => t.reg vf == 0 && t.pc == 0x202) = true := by decide

/-- G9. -/
theorem test_drw_past_end : faultIs (stepOn (start.setI 0xFF2) 0xD01F) .outOfBounds = true := by decide

/-- Y1. -/
theorem test_skp : nextIs (stepOn ((withRegs start [(0, 5)]).setKey 5 true) 0xE09E) (fun t => t.pc == 0x204 && !t.keyAt 5) = true := by decide

/-- Y5. -/
theorem test_skp_bad_key : faultIs (stepOn (withRegs start [(0, 0x10)]) 0xE09E) .outOfBounds = true := by decide

/-- Y3. -/
theorem test_sknp : nextIs (stepOn ((withRegs start [(0, 5)]).setKey 5 true) 0xE0A1) (fun t => t.pc == 0x202 && !t.keyAt 5) = true := by decide

/-- Y6. -/
theorem test_unknownE : faultIs (stepOn (start) 0xE09F) .invalidOpcode = true := by decide

/-- Y7. -/
theorem test_ldVxK_waits : nextIs (stepOn (start) 0xF10A) (fun t => t == start.withFetchWord 16 0xF10A) = true := by decide

/-- Y9. -/
theorem test_ldVxK_least : nextIs (stepOn ((start.setKey 9 true).setKey 4 true) 0xF10A) (fun t => t.reg 1 == 4 && !t.keyAt 4 && t.keyAt 9 && t.pc == 0x202) = true := by decide

/-- T1. -/
theorem test_ldDTVx : nextIs (stepOn (withRegs start [(1, 3)]) 0xF115) (fun t => t.dt == 3) = true := by decide

/-- T2. -/
theorem test_ldSTVx : nextIs (stepOn (withRegs start [(1, 0x10)]) 0xF118) (fun t => t.st == 0x10) = true := by decide

/-- T3. -/
theorem test_ldVxDT : nextIs (stepOn (start.setDT 2) 0xF207) (fun t => t.reg 2 == 2 && t.dt == 2) = true := by decide

/-- T7. -/
theorem test_unknownF : faultIs (stepOn (start) 0xF090) .invalidOpcode = true := by decide

/-! ### Host events (95_test_vectors) -/

/-- T4, T5. -/
theorem test_timer_tick : (timerTick ((start.setDT 3).setST 1)).dt = 2 ∧ (timerTick ((start.setDT 3).setST 1)).st = 0 ∧
    (timerTick start).dt = 0 := by decide

/-- A machine that jumps to itself, for the sequencer. -/
def selfJump : State := start.withFetchWord 16 0x1200

/-- S1: the step falls in the second `tick(2)` (90_conflicts C2). -/
theorem test_tick_first : (tick 2 selfJump).state.acc = 600 := by decide
theorem test_tick_second : (tick 2 (selfJump.setAcc 600)).state.acc = 200 := by decide

/-- S2: three steps. -/
theorem test_tick_three : (tick 10 (start.withFetchWord 16 0x6001)).state.pc = 0x206 := by decide

/-- S6: the failing step's period is charged, the other two stay. -/
theorem test_tick_error : (tick 10 (start.withFetchWord 16 0x8AB8)).state.acc = 2000 ∧
    (tick 10 (start.withFetchWord 16 0x8AB8)).reply = .error .invalidOpcode := by decide

/-- B1. -/
theorem test_reset_memory : State.reset.byteAt 0 = 0xF0 ∧ State.reset.byteAt 4 = 0xF0 ∧ State.reset.byteAt 0x4F = 0x80 ∧
    State.reset.byteAt 0x50 = 0 := by decide

/-- B2. -/
theorem test_load_program : (launch defaultConfig [0x12, 0x34, 0x56]).state.byteAt 0x202 = 0x56 ∧
    (launch defaultConfig [0x12, 0x34, 0x56]).state.byteAt 0x203 = 0 ∧
    (launch defaultConfig [0x12, 0x34, 0x56]).state.pc = 0x200 := by decide

/-- B6. -/
theorem test_step_at_reset : faultIs (step State.reset) .invalidOpcode = true := by decide

/-- The `reset` event under the default parameters is `State.reset`. -/
theorem test_reset_event : hostReset State.reset = State.reset := by decide

/-- The numeric codes of 60_exceptions R200. -/
theorem test_fault_codes : [Fault.romTooLarge, .stackOverflow, .stackUnderflow, .invalidOpcode, .outOfBounds].map faultCode =
    [1, 2, 3, 4, 5] := by decide

/-! ### Witnesses: for every statement with hypotheses, and every clause, values that meet them -/

theorem witness_DecodeEncodeRoundTrip : (Instr.sys 0xFFF).wf = true ∧ (Instr.unknown8 15 15 0xF).wf = true ∧
    (Instr.unknownE 0 0x00).wf = true ∧ (Instr.unknownF 15 0xFF).wf = true ∧ (Instr.drw 15 0 15).wf = true := by decide

/-- At the last address of the fetch. -/
theorem witness_StepRunsDecodedInstruction : (start.setPc 0xFFE).pc.toNat ≤ 4094 ∧ (0x0000 : Word).toNat =
    ((start.setPc 0xFFE).byteAt (start.setPc 0xFFE).pc.toNat).toNat * 256 +
      ((start.setPc 0xFFE).byteAt ((start.setPc 0xFFE).pc.toNat + 1)).toNat := by decide

theorem witness_FetchPastMemoryFaults : 4094 < (start.setPc 0xFFF).pc.toNat ∧ 4094 < (start.setPc 0x10FE).pc.toNat := by
  decide

/-- Each error, at the boundary where the instruction starts to raise it. -/
theorem witness_InstructionRaisesExactly : Raises (.call 0) (withStack start 0 32) .stackOverflow ∧
    Raises .ret start .stackUnderflow ∧ Raises (.unknown8 0 0 8) start .invalidOpcode ∧
    Raises (.ldB 0) (start.setI 0xFFE) .outOfBounds ∧ Raises (.ldIVx 15) (start.setI 0xFF1) .outOfBounds ∧
    Raises (.ldVxI 0) (start.setI 0x1000) .outOfBounds ∧ Raises (.drw 0 0 15) (start.setI 0xFF2) .outOfBounds ∧
    Raises (.skp 0) (start.setReg 0 16) .outOfBounds := by
  refine ⟨⟨rfl, rfl⟩, ⟨rfl, rfl⟩, rfl, ⟨by decide, rfl⟩, ⟨by decide, rfl⟩, ⟨by decide, rfl⟩, ⟨Or.inl ?_, rfl⟩,
    ⟨by decide, rfl⟩⟩
  unfold SpriteReadable
  decide

/-- One value inside each boundary no error is raised. -/
theorem witness_InstructionCompletesUnlessItRaises : (∀ f, ¬ Raises (.call 0) (withStack start 0 31) f) ∧
    (∀ f, ¬ Raises .ret (withStack start 0 1) f) ∧ (∀ f, ¬ Raises (.ldB 0) (start.setI 0xFFD) f) ∧
    (∀ f, ¬ Raises (.ldIVx 15) (start.setI 0xFF0) f) ∧ (∀ f, ¬ Raises (.skp 0) (start.setReg 0 15) f) ∧
    (∀ f, ¬ Raises .cls start f) :=
  ⟨fun _ h => absurd h.1 (by decide), fun _ h => absurd h.1 (by decide), fun _ h => absurd h.1 (by decide),
    fun _ h => absurd h.1 (by decide), fun _ h => absurd h.1 (by decide), fun _ h => h⟩

theorem witness_InstructionWritesOnlyItsOwn : (∃ t, exec (.drw 0 1 2) corner = .next t) ∧
    (∃ t, exec (.ldIVx 15) (start.setI 0xFF0) = .next t) ∧ (∃ t, exec (.call 0x300) start = .next t) :=
  ⟨⟨_, rfl⟩, ⟨_, rfl⟩, ⟨_, rfl⟩⟩

/-- A plain form, both outcomes of a skip, and both of the key wait. -/
theorem witness_DefaultAdvanceOfPc : (∃ t, exec (.ldImm 0 1) start = .next t ∧ t.pc = 0x202) ∧
    (∃ t, exec (.seImm 0 0) start = .next t ∧ t.pc = 0x204) ∧ (∃ t, exec (.seImm 0 1) start = .next t ∧ t.pc = 0x202) ∧
    exec (.ldVxK 1) start = .next start ∧ (∃ t, exec (.ldVxK 1) (start.setKey 15 true) = .next t ∧ t.pc = 0x202) :=
  ⟨⟨_, rfl, rfl⟩, ⟨_, rfl, rfl⟩, ⟨_, rfl, rfl⟩, rfl, ⟨_, rfl, rfl⟩⟩

theorem witness_UnknownWordsRaiseInvalidOpcode :
    (fetch (start.withFetchWord 16 0x8AB8) = .ok 0x8AB8 ∧ fieldFam 0x8AB8 = 8 ∧
      fieldN 0x8AB8 ∈ ([8, 9, 0xA, 0xB, 0xC, 0xD, 0xF] : List Nibble)) ∧
    (fetch (start.withFetchWord 16 0xE19F) = .ok 0xE19F ∧ fieldFam 0xE19F = 0xE ∧
      fieldKK 0xE19F ∉ ([0x9E, 0xA1] : List Byte)) ∧
    (fetch (start.withFetchWord 16 0xF066) = .ok 0xF066 ∧ fieldFam 0xF066 = 0xF ∧
      fieldKK 0xF066 ∉ ([0x07, 0x0A, 0x15, 0x18, 0x1E, 0x29, 0x33, 0x55, 0x65] : List Byte)) :=
  ⟨⟨rfl, by decide⟩, ⟨rfl, by decide⟩, ⟨rfl, by decide⟩⟩

theorem witness_RetResult : start.sp.val = 0 ∧ (withStack start 0x202 1).sp.val = (0 : Fin 32).val + 1 ∧
    (withStack start 0x202 32).sp.val = (31 : Fin 32).val + 1 := by decide

theorem witness_CallResult : (withStack start 0 32).sp.val = 32 ∧ start.sp.val = (0 : Fin 32).val ∧
    (withStack start 0 31).sp.val = (31 : Fin 32).val := by decide

theorem witness_RetReturnsAfterCall : ∃ t, exec (.call 0x300) (withStack start 0 31) = .next t ∧
    (t.setPc 0x400).stack = t.stack ∧ (t.setPc 0x400).sp = t.sp := ⟨_, rfl, rfl, rfl⟩

theorem witness_SelfJumpChangesNothing : selfJump.pc.toNat = (0x200 : Addr12).toNat ∧
    fetch selfJump = .ok (encode (.jp 0x200)) := ⟨by decide, rfl⟩

/-- A destination that is not `VF`, and, for the shifts, one that is. -/
theorem witness_FlagClauses : (0 : Reg) ≠ vf ∧ (14 : Reg) ≠ vf ∧ (15 : Reg) = vf := by decide

theorem witness_ArithmeticLosesNothing : (1 : Reg) ≠ vf ∧
    (∃ t, exec (.addReg 1 2) (withRegs start [(1, 0xFF), (2, 0xFF)]) = .next t) ∧
    (∃ t, exec (.subReg 1 2) (withRegs start [(1, 0), (2, 0xFF)]) = .next t) ∧
    (∃ t, exec (.subn 1 2) (withRegs start [(1, 0xFF), (2, 0)]) = .next t) ∧
    (∃ t, exec (.shr 1 2) (withRegs start [(1, 0xFF)]) = .next t) ∧
    (∃ t, exec (.shl 1 2) (withRegs start [(1, 0xFF)]) = .next t) :=
  ⟨by decide, ⟨_, rfl⟩, ⟨_, rfl⟩, ⟨_, rfl⟩, ⟨_, rfl⟩, ⟨_, rfl⟩⟩

theorem witness_BcdStoreResult : (start.setI 0xFFE).i.toNat + 2 > 4095 ∧ (start.setI 0xFFFF).i.toNat + 2 > 4095 ∧
    (start.setI 0xFFD).i.toNat + 2 ≤ 4095 ∧ (start.setI 0xFFD).mem.wf = true := by decide

theorem witness_RegisterStoreResult : (start.setI 0xFF1).i.toNat + (15 : Reg).val > 4095 ∧
    (start.setI 0x1000).i.toNat + (0 : Reg).val > 4095 ∧ (start.setI 0xFF0).i.toNat + (15 : Reg).val ≤ 4095 ∧
    (start.setI 0xFFF).i.toNat + (0 : Reg).val ≤ 4095 ∧ (start.setI 0xFF0).mem.wf = true := by decide

theorem witness_RegisterLoadResult : (start.setI 0xFFF).i.toNat + (1 : Reg).val > 4095 ∧
    (start.setI 0xFFF).i.toNat + (0 : Reg).val ≤ 4095 ∧ (start.setI 0xFF0).i.toNat + (15 : Reg).val ≤ 4095 := by decide

theorem witness_StoreThenLoadGivesBack : (start.setI 0xFF0).mem.wf = true ∧
    ∃ t, exec (.ldIVx 15) (start.setI 0xFF0) = .next t ∧ (t.setReg 3 9).mem = t.mem ∧ (t.setReg 3 9).i = t.i :=
  ⟨by decide, _, rfl, rfl, rfl⟩

/-- Up to the last word of memory, with the least `x` that stores a whole word. -/
theorem witness_StoreIsSeenByNextFetch : ((start.setPc 0xFFC).setI 0xFFE).mem.wf = true ∧
    (∃ t, exec (.ldIVx 1) ((start.setPc 0xFFC).setI 0xFFE) = .next t) ∧ 1 ≤ (1 : Reg).val ∧
    ((start.setPc 0xFFC).setI 0xFFE).i.toNat = ((start.setPc 0xFFC).setI 0xFFE).pc.toNat + 2 :=
  ⟨by decide, ⟨_, rfl⟩, by decide, by decide⟩

/-- A sprite over both edges with a collision under `wrap`, one inside the grid under `reject` without any, and no rows
at all. -/
theorem witness_DrwResult :
    (SpriteReadable corner 2 ∧ SpriteAllowed corner 0 1 2 ∧ SpriteTargets corner 0 1 2 63 31 ∧
      ¬ SpriteTargets corner 0 1 2 10 5) ∧
    (SpriteReadable column 2 ∧ ∃ cx cy, SpriteTargets column 0 1 2 cx cy ∧ column.pixel cx cy = true) ∧
    SpriteAllowed (rejecting column) 0 1 2 ∧
    (SpriteReadable (start.setI 0xFFFF) 0 ∧ ¬ ∃ cx cy, SpriteTargets (start.setI 0xFFFF) 0 0 0 cx cy ∧
      (start.setI 0xFFFF).pixel cx cy = true) ∧
    SpriteReadable (start.setI 0xFF1) 15 := by
  refine ⟨⟨Or.inr (by decide), Or.inl rfl, ⟨0, 1, ⟨by decide, by decide, by decide⟩, by decide, by decide⟩, ?_⟩,
    ⟨Or.inr (by decide), 10, 5, ⟨0, 0, ⟨by decide, by decide, by decide⟩, by decide, by decide⟩, by decide⟩,
    Or.inr ?_, ⟨Or.inl rfl, ?_⟩, Or.inr (by decide)⟩
  · rintro ⟨r, c, ⟨hr, hc, -⟩, hx, -⟩
    have hx' : (10 : Nat) = (62 + c) % 64 := hx
    omega
  · rintro ⟨r, c, ⟨hr, hc, -⟩, hx | hx⟩
    · have hx' : 10 + c > 63 := hx
      omega
    · have hr' : r < 2 := hr
      have hx' : 5 + r > 31 := hx
      omega
  · rintro ⟨cx, cy, ⟨r, c, ⟨hr, -⟩, -⟩, -⟩
    exact absurd hr (Nat.not_lt_zero r)

theorem witness_DrwFaults : (0 < (15 : Nibble).toNat ∧ (start.setI 0xFF2).i.toNat + (15 : Nibble).toNat - 1 > 4095) ∧
    (0 < (1 : Nibble).toNat ∧ (start.setI 0x1000).i.toNat + (1 : Nibble).toNat - 1 > 4095) ∧
    ((rejecting corner).cfg.drawEdge = .reject ∧ SpriteLeavesGrid (rejecting corner) 0 1 2) :=
  ⟨by decide, by decide, rfl, 1, 7, ⟨by decide, by decide, by decide⟩, Or.inl (by decide)⟩

theorem witness_DrawingTwiceRestores : (0 : Reg) ≠ vf ∧ (1 : Reg) ≠ vf ∧ ∃ t, exec (.drw 0 1 2) corner = .next t ∧
    t.reg vf = 0 ∧ (t.setPc 0x208).v = t.v ∧ (t.setPc 0x208).i = t.i ∧ (t.setPc 0x208).mem = t.mem ∧
    (t.setPc 0x208).disp = t.disp ∧ (t.setPc 0x208).cfg = t.cfg :=
  ⟨by decide, by decide, _, rfl, by decide, rfl, rfl, rfl, rfl, rfl⟩

theorem witness_KeySkipResults : ((start.setReg 0 15).reg 0).toNat = (15 : Reg).val ∧ (start.reg 0).toNat = (0 : Reg).val := by
  decide

theorem witness_KeyIndexOutOfRangeFaults : 15 < ((start.setReg 0 16).reg 0).toNat ∧
    15 < ((start.setReg 0 0xFF).reg 0).toNat := by decide

theorem witness_WaitKeyResult : (∀ k, start.keyAt k = false) ∧
    (((start.setKey 9 true).setKey 15 true).keyAt 9 = true ∧
      ∀ j, j < (9 : Reg) → ((start.setKey 9 true).setKey 15 true).keyAt j = false) := by decide

/-- A state off the reset state, with a full stack, meets the invariant and steps. -/
theorem witness_StepKeepsInvariant : (withStack (start.withFetchWord 16 0xBFFF) 0x1000 32).Inv ∧
    ∃ t, step (withStack (start.withFetchWord 16 0xBFFF) 0x1000 32) = .next t :=
  ⟨⟨by decide, by decide, by decide, by decide⟩, _, rfl⟩

theorem witness_HostEventKeepsInvariant : selfJump.Inv := ⟨by decide, by decide, by decide, by decide⟩

theorem witness_ResetValues : ∃ t, (hostEvent .reset corner).state = t := ⟨_, rfl⟩

theorem witness_LoadProgramResult : (List.replicate 3585 (1 : Byte)).length > 3584 ∧
    (List.replicate 3584 (1 : Byte)).length ≤ 3584 ∧ ([] : List Byte).length ≤ 3584 ∧ start.mem.wf = true :=
  ⟨by rw [List.length_replicate]; decide, by rw [List.length_replicate], by decide, by decide⟩

theorem witness_SoundTimerIsInvisible : (∃ t, step selfJump = .next t) ∧
    step (start.withFetchWord 16 0x8AB8) = .fault .invalidOpcode := ⟨⟨_, rfl⟩, rfl⟩

/-- Three due periods, and the remainder. -/
theorem witness_TickRunsTheDueSteps : (selfJump.acc + 11 * selfJump.cfg.clockHz) / 1000 = 3 ∧
    ∃ u, core.run 3 selfJump = .next u := ⟨by decide, _, rfl⟩

/-- The first of three due steps fails; and the second does, after one that runs. -/
theorem witness_TickStopsAtFailingStep :
    (0 < ((start.withFetchWord 16 0x8AB8).acc + 10 * (start.withFetchWord 16 0x8AB8).cfg.clockHz) / 1000 ∧
      core.run 0 (start.withFetchWord 16 0x8AB8) = .next (start.withFetchWord 16 0x8AB8) ∧
      step (start.withFetchWord 16 0x8AB8) = .fault .invalidOpcode) ∧
    (1 < ((start.withFetchWord 16 0x1FFF).acc + 10 * (start.withFetchWord 16 0x1FFF).cfg.clockHz) / 1000 ∧
      ∃ u, core.run 1 (start.withFetchWord 16 0x1FFF) = .next u ∧ step u = .fault .outOfBounds) :=
  ⟨⟨by decide, rfl, rfl⟩, by decide, _, rfl, rfl⟩

theorem witness_TicksDoNotDrift : (hostEvent (.tick 10) selfJump).reply = .ok := by decide

theorem witness_ErrorRepeatsForEver :
    (∀ e ∈ ([.tick 10, .keyEvent 3 true, .timerTick, .readDisplay, .snapshotRegisters] : List HostEvent),
      e.keepsProgram = true) ∧ step (start.withFetchWord 16 0x8AB8) = .fault .invalidOpcode := ⟨by decide, rfl⟩

theorem witness_PressIsSeenOnce : ((start.setReg 0 15).reg 0).toNat = (15 : Reg).val := by decide

end Sys2Proof.Tests
end

section
/-! PROOF. The last row of each family with a sub-table is selected for exactly the operands that no earlier row takes
(`Instr.wf`), and with that the worked decode examples (30_encoding R84). -/

namespace Sys2Proof

/-- Row 3 is selected when rows 1 and 2 fail (30_encoding R75). -/
theorem decode0_eq_sys {nnn : Addr12} (h : (Instr.sys nnn).wf = true) : decode0 nnn = .sys nnn := by
  simp_all [Instr.wf, decode0]

/-- Row 20 is selected when rows 11 to 19 fail (30_encoding R75, R78). -/
theorem decode8_eq_unknown8 {x y : Reg} {n : Nibble} (h : (Instr.unknown8 x y n).wf = true) :
    decode8 x y n = .unknown8 x y n := by
  unfold decode8
  split <;> simp_all [Instr.wf, aluNibbles, BitVec.toNat_eq]

/-- Row 28 is selected when rows 26 and 27 fail (30_encoding R75, R78). -/
theorem decodeE_eq_unknownE {x : Reg} {kk : Byte} (h : (Instr.unknownE x kk).wf = true) :
    decodeE x kk = .unknownE x kk := by
  unfold decodeE
  split <;> simp_all [Instr.wf, keyBytes, BitVec.toNat_eq]

/-- Row 38 is selected when rows 29 to 37 fail (30_encoding R75, R78). -/
theorem decodeF_eq_unknownF {x : Reg} {kk : Byte} (h : (Instr.unknownF x kk).wf = true) :
    decodeF x kk = .unknownF x kk := by
  unfold decodeF
  split <;> simp_all [Instr.wf, miscBytes, BitVec.toNat_eq]

/-- Settles O4: a word of an assigned row by evaluation, a word of a last row (3, 20, 28, 38) because its operands are
those that no earlier row of its family takes. -/
theorem workedDecodeExamples : Obligations.WorkedDecodeExamples := by
  have drw : decodeWord 0xD125 = .drw 1 2 5 := rfl
  have cls : decodeWord 0x00E0 = .cls := rfl
  have besideCls : decodeWord 0x00E1 = .sys 0x0E1 := decode0_eq_sys (nnn := 0x0E1) (by decide)
  have zero : decodeWord 0x0000 = .sys 0 := decode0_eq_sys (nnn := 0) (by decide)
  have nibbleIgnored : decodeWord 0x5AB7 = .seReg 0xA 0xB 7 := rfl
  have unassigned8 : decodeWord 0x8AB8 = .unknown8 0xA 0xB 8 :=
    decode8_eq_unknown8 (x := 0xA) (y := 0xB) (n := 8) (by decide)
  have besideSkp : decodeWord 0xE19F = .unknownE 1 0x9F := decodeE_eq_unknownE (x := 1) (kk := 0x9F) (by decide)
  have fontBytes : decodeWord 0xF090 = .unknownF 0 0x90 := decodeF_eq_unknownF (x := 0) (kk := 0x90) (by decide)
  have load : decodeWord 0xFF65 = .ldVxI 0xF := rfl
  have add : decodeWord 0x8104 = .addReg 1 0 := rfl
  exact ⟨drw, cls, besideCls, zero, nibbleIgnored, unassigned8, besideSkp, fontBytes, load, add⟩

end Sys2Proof
end

section
/-! PROOF. The control transfers RET, JP, CALL and JP V0 (40_control_flow R103 to R106): what a push and a pop do at a
known depth, the frame of an update of `pc` and of the stack, and one equation per outcome of each instruction. -/

namespace Sys2Proof.Machine

/-! ### Frames -/

/-- A state keeps all of itself. -/
theorem Keeps.refl (w : Writes) (s : State) : Keeps w s s :=
  ⟨fun _ _ => rfl, fun _ => rfl, fun _ _ => rfl, fun _ => ⟨rfl, rfl⟩, fun _ _ _ => rfl, fun _ _ => rfl, fun _ => rfl,
    fun _ => rfl, fun _ => rfl, rfl, rfl⟩

/-- No frame speaks of `pc`. -/
theorem Keeps.setPc {w : Writes} {s t : State} (h : Keeps w s t) (p : Word) : Keeps w s (t.setPc p) := h

/-- Where the stack may change, so may its cells and depth. -/
theorem Keeps.setStack {w : Writes} {s t : State} (h : Keeps w s t) (hw : w.stack) (cells : Vector Word 32)
    (depth : Fin 33) : Keeps w s (t.setStack cells depth) := by
  obtain ⟨hreg, hi, hmem, -, hrest⟩ := h
  exact ⟨hreg, hi, hmem, fun hn => absurd hw hn, hrest⟩

/-! ### The stack at a known depth -/

/-- A stack cell reads as last written, and a write leaves the others alone. -/
theorem stack_get_set (cells : Vector Word 32) (j k : Fin 32) (w : Word) :
    (cells.set j.val w j.isLt).get k = if k = j then w else cells.get k := by
  simp only [Vector.get_eq_getElem, Vector.getElem_set, Fin.ext_iff, eq_comm]

/-- A push at depth `j` writes cell `j`. -/
theorem State.push_at {s : State} {j : Fin 32} (h : s.sp.val = j.val) (w : Word) :
    s.push w = .ok (s.setStack (s.stack.set j.val w j.isLt) j.succ) := by
  rw [State.push_ok (h ▸ j.isLt)]
  simp only [h, Fin.succ]

/-- A pop at depth `j + 1` reads cell `j`. -/
theorem State.pop_at {s : State} {j : Fin 32} (h : s.sp.val = j.val + 1) :
    s.pop = .ok (s.stack.get j, s.setStack s.stack j.castSucc) := by
  rw [State.pop_ok (by omega)]
  simp only [h, Nat.add_sub_cancel, Fin.castSucc, Fin.castAdd, Fin.castLE]

/-! ### Jump targets -/

theorem addrWord_toNat (nnn : Addr12) : (addrWord nnn).toNat = nnn.toNat :=
  BitVec.toNat_setWidth_of_le (by decide)

/-- `V0 + nnn` fits a word, so the addition of JP V0 is exact (40_control_flow R106). -/
theorem jpV0Target_toNat (b : Byte) (nnn : Addr12) :
    (b.setWidth 16 + addrWord nnn).toNat = b.toNat + nnn.toNat := by
  have hb : (b.setWidth 16).toNat = b.toNat := BitVec.toNat_setWidth_of_le (by decide)
  have hlt : b.toNat + nnn.toNat < 2 ^ 16 := by
    have := b.isLt
    have := nnn.isLt
    omega
  rw [BitVec.toNat_add, hb, addrWord_toNat, Nat.mod_eq_of_lt hlt]

/-! ### One equation per instruction and outcome -/

theorem exec_ret (s : State) : exec .ret s = execRet s := rfl

theorem exec_ret_of_empty {s : State} (h : s.sp.val = 0) : exec .ret s = .fault .stackUnderflow := by
  rw [exec_ret, execRet, State.pop_empty h]
  rfl

theorem exec_ret_at {s : State} {j : Fin 32} (h : s.sp.val = j.val + 1) :
    exec .ret s = .next ((s.setStack s.stack j.castSucc).setPc (s.stack.get j)) := by
  rw [exec_ret, execRet, State.pop_at h]

theorem exec_jp (nnn : Addr12) (s : State) : exec (.jp nnn) s = .next (s.setPc (addrWord nnn)) := rfl

theorem exec_call (nnn : Addr12) (s : State) : exec (.call nnn) s = execCall nnn s := rfl

theorem exec_call_of_full {s : State} (h : s.sp.val = 32) (nnn : Addr12) :
    exec (.call nnn) s = .fault .stackOverflow := by
  rw [exec_call, execCall, State.push_full h]
  rfl

theorem exec_call_at {s : State} {j : Fin 32} (h : s.sp.val = j.val) (nnn : Addr12) :
    exec (.call nnn) s =
      .next ((s.setStack (s.stack.set j.val (s.pc + 2) j.isLt) j.succ).setPc (addrWord nnn)) := by
  rw [exec_call, execCall, State.push_at h]

theorem exec_jpV0 (nnn : Addr12) (s : State) :
    exec (.jpV0 nnn) s = .next (s.setPc ((s.reg 0).setWidth 16 + addrWord nnn)) := rfl

/-! ### The statements -/

/-- Settles O14: an empty stack raises; at depth `j + 1` the pop reads cell `j` and lowers the depth alone. -/
theorem retResult : Obligations.RetResult := by
  intro s
  refine ⟨exec_ret_of_empty, fun j hj => ⟨_, exec_ret_at hj, ?_, rfl, rfl, rfl⟩⟩
  exact ((Keeps.refl _ s).setStack trivial _ _).setPc _

/-- Settles O15: the 12-bit target widens to `pc` without loss. -/
theorem jpResult : Obligations.JpResult := fun nnn s =>
  ⟨_, exec_jp nnn s, (Keeps.refl _ s).setPc _, addrWord_toNat nnn⟩

/-- Settles O16: a full stack raises; at depth `j` the push writes cell `j` alone. -/
theorem callResult : Obligations.CallResult := by
  intro nnn s
  refine ⟨fun h => exec_call_of_full h nnn, fun j hj => ⟨_, exec_call_at hj nnn, ?_, rfl, ?_, ?_, addrWord_toNat nnn⟩⟩
  · exact ((Keeps.refl _ s).setStack trivial _ _).setPc _
  · exact (stack_get_set s.stack j j _).trans (if_pos rfl)
  · exact fun k hk => (stack_get_set s.stack j k _).trans (if_neg hk)

/-- Settles O17: the sum of a byte and a 12-bit address does not overflow `pc`. -/
theorem jpV0Result : Obligations.JpV0Result := fun nnn s =>
  ⟨_, exec_jpV0 nnn s, (Keeps.refl _ s).setPc _, jpV0Target_toNat (s.reg 0) nnn⟩

end Sys2Proof.Machine
end

section
/-! PROOF. The skips SE Vx, kk and SNE Vx, kk (41_skips R110, R111): the frame of a skip, its `pc` under a condition
stated on numbers, and one equation per instruction. -/

namespace Sys2Proof.Machine

/-! ### Skips -/

/-- A skip writes `pc` alone. -/
theorem Keeps.skipIf {w : Writes} {s t : State} (h : Keeps w s t) (c : Bool) : Keeps w s (t.skipIf c) := h.setPc _

/-- The `pc` after a skip whose test decides `p`. -/
theorem State.skipIf_pc_of_iff {c : Bool} {p : Prop} [Decidable p] (h : c = true ↔ p) (s : State) :
    (s.skipIf c).pc = if p then s.pc + 4 else s.pc + 2 :=
  (s.skipIf_pc c).trans (if_congr h rfl rfl)

/-- The equality test of a skip compares bytes as unsigned numbers. -/
theorem byte_beq_iff_toNat_eq (a b : Byte) : (a == b) = true ↔ a.toNat = b.toNat :=
  beq_iff_eq.trans BitVec.toNat_inj.symm

/-- The inequality test of a skip compares bytes as unsigned numbers. -/
theorem byte_bne_iff_toNat_ne (a b : Byte) : (a != b) = true ↔ a.toNat ≠ b.toNat :=
  bne_iff_ne.trans (not_congr BitVec.toNat_inj.symm)

theorem exec_seImm (x : Reg) (kk : Byte) (s : State) :
    exec (.seImm x kk) s = .next (s.skipIf (s.reg x == kk)) := rfl

theorem exec_sneImm (x : Reg) (kk : Byte) (s : State) :
    exec (.sneImm x kk) s = .next (s.skipIf (s.reg x != kk)) := rfl

/-! ### The statement -/

/-- Settles O20: both forms are a skip, whose test is equality or inequality of the unsigned values. -/
theorem immediateSkipResults : Obligations.ImmediateSkipResults := by
  intro x kk s
  constructor
  · exact ⟨_, exec_seImm x kk s, (Keeps.refl _ s).skipIf _,
      s.skipIf_pc_of_iff (byte_beq_iff_toNat_eq (s.reg x) kk)⟩
  · exact ⟨_, exec_sneImm x kk s, (Keeps.refl _ s).skipIf _,
      s.skipIf_pc_of_iff (byte_bne_iff_toNat_ne (s.reg x) kk)⟩

end Sys2Proof.Machine
end

section
/-! PROOF. The register load LD Vx, kk (42_register_immediate R120): the frame of a register write and of the default
advance of `pc`, and the instruction's equation. -/

namespace Sys2Proof.Machine

/-! ### Register writes -/

/-- A register that may change may be written; a write to it reaches nothing else. -/
theorem Keeps.setReg {w : Writes} {s t : State} (h : Keeps w s t) {x : Reg} (hw : w.regs x) (b : Byte) :
    Keeps w s (t.setReg x b) := by
  obtain ⟨hreg, hrest⟩ := h
  refine ⟨fun r hr => ?_, hrest⟩
  have hne : r ≠ x := fun e => hr (e ▸ hw)
  rw [State.setReg_reg, if_neg hne, hreg r hr]

/-- The default advance writes `pc` alone (40_control_flow R101). -/
theorem Keeps.advance {w : Writes} {s t : State} (h : Keeps w s t) : Keeps w s t.advance := h.setPc _

/-- A register just written reads as written. -/
theorem State.setReg_reg_self (s : State) (x : Reg) (b : Byte) : (s.setReg x b).reg x = b :=
  (s.setReg_reg x b x).trans (if_pos rfl)

theorem exec_ldImm (x : Reg) (kk : Byte) (s : State) : exec (.ldImm x kk) s = .next (s.setReg x kk).advance := rfl

/-! ### The statement -/

/-- Settles O22: a write of `V[x]` and the default advance. -/
theorem ldImmResult : Obligations.LdImmResult := fun x kk s =>
  ⟨_, exec_ldImm x kk s, ((Keeps.refl _ s).setReg rfl kk).advance, s.setReg_reg_self x kk, State.advance_pc _⟩

end Sys2Proof.Machine
end

section
/-! PROOF. The words of the three UNKNOWN rows (43_alu R139, 46_keyboard R173, 47_timers R183): the step of a fetched word,
the decoder on the families with a sub-table, and the error of each row. -/

namespace Sys2Proof

/-! ### The families with a sub-table -/

theorem decodeWord_of_fam8 {w : Word} (h : fieldFam w = 8) :
    decodeWord w = decode8 (fieldX w) (fieldY w) (fieldN w) := by
  rw [decodeWord, h]
  rfl

theorem decodeWord_of_famE {w : Word} (h : fieldFam w = 0xE) : decodeWord w = decodeE (fieldX w) (fieldKK w) := by
  rw [decodeWord, h]
  rfl

theorem decodeWord_of_famF {w : Word} (h : fieldFam w = 0xF) : decodeWord w = decodeF (fieldX w) (fieldKK w) := by
  rw [decodeWord, h]
  rfl

/-- The seven low nibbles that R139 lists are those that name no operation of family 8. -/
theorem unknown8_wf_of_mem {n : Nibble} (h : n ∈ ([8, 9, 0xA, 0xB, 0xC, 0xD, 0xF] : List Nibble)) (x y : Reg) :
    (Instr.unknown8 x y n).wf = true := by
  have hall : ∀ m ∈ ([8, 9, 0xA, 0xB, 0xC, 0xD, 0xF] : List Nibble), (!aluNibbles.contains m) = true := by decide
  exact hall n h

theorem unknownE_wf_iff {x : Reg} {kk : Byte} : (Instr.unknownE x kk).wf = true ↔ kk ∉ keyBytes := by
  simp only [Instr.wf, Bool.not_eq_true', List.contains_eq_mem, decide_eq_false_iff_not]

theorem unknownF_wf_iff {x : Reg} {kk : Byte} : (Instr.unknownF x kk).wf = true ↔ kk ∉ miscBytes := by
  simp only [Instr.wf, Bool.not_eq_true', List.contains_eq_mem, decide_eq_false_iff_not]

namespace Machine

/-! ### One equation per row, and the step of a fetched word -/

theorem exec_unknown8 (x y : Reg) (n : Nibble) (s : State) : exec (.unknown8 x y n) s = .fault .invalidOpcode := rfl

theorem exec_unknownE (x : Reg) (kk : Byte) (s : State) : exec (.unknownE x kk) s = .fault .invalidOpcode := rfl

theorem exec_unknownF (x : Reg) (kk : Byte) (s : State) : exec (.unknownF x kk) s = .fault .invalidOpcode := rfl

/-- A step that fetches a word executes what the word decodes to (40_control_flow R100). -/
theorem step_of_fetch {s : State} {w : Word} (h : fetch s = .ok w) : step s = exec (decodeWord w) s := by
  rw [step, h]

/-! ### The statement -/

/-- Settles O12: each row raises in every state, and a fetched word of the three groups decodes to its family's last
row, since no earlier row of the family takes it. -/
theorem unknownWordsRaiseInvalidOpcode : Obligations.UnknownWordsRaiseInvalidOpcode := by
  refine ⟨exec_unknown8, exec_unknownE, exec_unknownF, fun s w hw hrow => ?_⟩
  rw [step_of_fetch hw]
  obtain ⟨hfam, hn⟩ | ⟨hfam, hkk⟩ | ⟨hfam, hkk⟩ := hrow
  · rw [decodeWord_of_fam8 hfam, decode8_eq_unknown8 (unknown8_wf_of_mem hn _ _), exec_unknown8]
  · rw [decodeWord_of_famE hfam, decodeE_eq_unknownE (unknownE_wf_iff.mpr hkk), exec_unknownE]
  · rw [decodeWord_of_famF hfam, decodeF_eq_unknownF (unknownF_wf_iff.mpr hkk), exec_unknownF]

end Machine

end Sys2Proof
end

section
/-! PROOF. ADD, SUB and SUBN (43_alu R134, R135, R137): a result and then a flag (R141), what each flag and each result
is as a number, and one equation per instruction. -/

namespace Sys2Proof.Machine

/-! ### A result, then a flag -/

theorem Keeps.putRegThenFlag {w : Writes} {s t : State} (h : Keeps w s t) {x : Reg} (hx : w.regs x) (hvf : w.regs vf)
    (b f : Byte) : Keeps w s (t.putRegThenFlag x b f) :=
  ((h.setReg hx b).setReg hvf f).advance

/-- The flag is written last, so `VF` holds it for `x = 0xF` too. -/
theorem State.putRegThenFlag_reg_vf (s : State) (x : Reg) (b f : Byte) : (s.putRegThenFlag x b f).reg vf = f :=
  (s.setReg x b).setReg_reg_self vf f

theorem State.putRegThenFlag_reg_of_ne {x : Reg} (hx : x ≠ vf) (s : State) (b f : Byte) :
    (s.putRegThenFlag x b f).reg x = b :=
  (((s.setReg x b).setFlag_reg f x).trans (if_neg hx)).trans (s.setReg_reg_self x b)

theorem State.putRegThenFlag_pc (s : State) (x : Reg) (b f : Byte) : (s.putRegThenFlag x b f).pc = s.pc + 2 := rfl

/-! ### Flags and results as numbers -/

theorem flagByte_decide_toNat (p : Prop) [Decidable p] : (flagByte (decide p)).toNat = if p then 1 else 0 := by
  by_cases h : p <;> simp [flagByte, h]

theorem carryFlag_toNat (a b : Byte) : (carryFlag a b).toNat = if a.toNat + b.toNat > 255 then 1 else 0 :=
  flagByte_decide_toNat _

theorem notBorrow_toNat (a b : Byte) : (notBorrow a b).toNat = if a.toNat ≥ b.toNat then 1 else 0 :=
  flagByte_decide_toNat _

/-- A byte difference is the integer difference modulo 256. -/
theorem byte_sub_toNat (a b : Byte) : ((a - b).toNat : Int) = ((a.toNat : Int) - b.toNat) % 256 := by
  have := a.isLt
  have := b.isLt
  rw [BitVec.toNat_sub]
  omega

/-! ### One equation per instruction -/

theorem exec_addReg (x y : Reg) (s : State) : exec (.addReg x y) s =
    .next (s.putRegThenFlag x (BitVec.ofNat 8 ((s.reg x).toNat + (s.reg y).toNat)) (carryFlag (s.reg x) (s.reg y))) :=
  rfl

theorem exec_subReg (x y : Reg) (s : State) : exec (.subReg x y) s =
    .next (s.putRegThenFlag x (s.reg x - s.reg y) (notBorrow (s.reg x) (s.reg y))) := rfl

theorem exec_subn (x y : Reg) (s : State) : exec (.subn x y) s =
    .next (s.putRegThenFlag x (s.reg y - s.reg x) (notBorrow (s.reg y) (s.reg x))) := rfl

/-! ### The statements -/

/-- Settles O26: the sum modulo 256, then the carry of the old operands. -/
theorem addRegResult : Obligations.AddRegResult := by
  intro x y s
  refine ⟨_, exec_addReg x y s, (Keeps.refl _ s).putRegThenFlag (Or.inl rfl) (Or.inr rfl) _ _, fun hx => ?_, ?_,
    s.putRegThenFlag_pc x _ _⟩
  · rw [State.putRegThenFlag_reg_of_ne hx, BitVec.toNat_ofNat]
  · rw [State.putRegThenFlag_reg_vf, carryFlag_toNat]

/-- What SUB and SUBN share: a difference into `V[x]`, then its not-borrow into `VF`. -/
theorem putDifference_result {r : Result} {s : State} {x : Reg} {a b : Byte}
    (h : r = .next (s.putRegThenFlag x (a - b) (notBorrow a b))) :
    ∃ t, r = .next t ∧ Keeps { regs := fun q => q = x ∨ q = vf } s t ∧
      (x ≠ vf → ((t.reg x).toNat : Int) = ((a.toNat : Int) - b.toNat) % 256) ∧
      (t.reg vf).toNat = (if a.toNat ≥ b.toNat then 1 else 0) ∧ t.pc = s.pc + 2 := by
  refine ⟨_, h, (Keeps.refl _ s).putRegThenFlag (Or.inl rfl) (Or.inr rfl) _ _, fun hx => ?_, ?_,
    s.putRegThenFlag_pc x _ _⟩
  · rw [State.putRegThenFlag_reg_of_ne hx, byte_sub_toNat]
  · rw [State.putRegThenFlag_reg_vf, notBorrow_toNat]

/-- Settles O27: SUBN is SUB with the operands exchanged. -/
theorem subtractResults : Obligations.SubtractResults := fun x y s =>
  ⟨putDifference_result (exec_subReg x y s), putDifference_result (exec_subn x y s)⟩

end Sys2Proof.Machine
end

section
/-! PROOF. The store of decimal digits LD B, Vx (44_index_memory R153): a store at `I` on either side of the memory bound,
the frame of a write to memory and the bytes it leaves, and the digits as numbers. -/

namespace Sys2Proof.Machine

/-! ### Writes to memory -/

/-- Addresses that may change may be written; a write to them reaches nothing else. -/
theorem Keeps.setMem_writeList {w : Writes} {s t : State} (h : Keeps w s t) {a : Nat} {bs : List Byte}
    (hw : ∀ b, a ≤ b → b < a + bs.length → w.mem b) : Keeps w s (t.setMem (t.mem.writeList a bs)) := by
  obtain ⟨hreg, hi, hmem, hrest⟩ := h
  refine ⟨hreg, hi, fun b hb => ?_, hrest⟩
  have houtside : b < a ∨ a + bs.length ≤ b := by
    by_contra hin
    exact hb (hw b (by omega) (by omega))
  exact (Memory.read_writeList_outside bs t.mem houtside).trans (hmem b hb)

/-- The state a store at `I` leaves. -/
def State.storedAtI (s : State) (bs : List Byte) : State := (s.setMem (s.mem.writeList s.i.toNat bs)).advance

theorem State.storedAtI_pc (s : State) (bs : List Byte) : (s.storedAtI bs).pc = s.pc + 2 := rfl

/-- The `k`-th byte stored stands at the effective address `I + k` (44_index_memory R156). -/
theorem State.storedAtI_byteAt {s : State} {bs : List Byte} (hwf : s.mem.wf = true)
    (hl : s.i.toNat + bs.length ≤ 4096) {k : Nat} (hk : k < bs.length) :
    (s.storedAtI bs).byteAt (s.dataAddr k) = bs[k] :=
  Memory.read_writeList_inside bs hwf hl hk

/-- A store at `I` writes its own addresses and `pc`. -/
theorem Keeps.storedAtI {w : Writes} (s : State) {bs : List Byte}
    (hw : ∀ b, s.i.toNat ≤ b → b < s.i.toNat + bs.length → w.mem b) : Keeps w s (s.storedAtI bs) :=
  ((Keeps.refl w s).setMem_writeList hw).advance

/-! ### A store at `I` on either side of the bound (20_memory R52) -/

theorem State.storeAtI_of_le {s : State} {bs : List Byte} (h : s.i.toNat + bs.length ≤ 4096) :
    s.storeAtI bs = .next (s.storedAtI bs) := by
  obtain ⟨-, hnext⟩ | ⟨hout, -⟩ := s.storeAtI_cases bs
  · exact hnext
  · have hin : inMemory s.i.toNat bs.length = true := inMemory_iff.mpr (by omega)
    exact absurd (hin.symm.trans hout) (by decide)

theorem State.storeAtI_of_lt {s : State} {bs : List Byte} (hpos : 0 < bs.length) (h : 4096 < s.i.toNat + bs.length) :
    s.storeAtI bs = .fault .outOfBounds := by
  obtain ⟨hin, -⟩ | ⟨-, hfault⟩ := s.storeAtI_cases bs
  · have := inMemory_iff.mp hin
    omega
  · exact hfault

/-! ### Decimal digits -/

theorem bcd_hundreds_toNat (b : Byte) : ((bcd b)[0]).toNat = b.toNat / 100 := by
  have := b.isLt
  exact (BitVec.toNat_ofNat _ _).trans (Nat.mod_eq_of_lt (by omega))

theorem bcd_tens_toNat (b : Byte) : ((bcd b)[1]).toNat = b.toNat / 10 % 10 :=
  (BitVec.toNat_ofNat _ _).trans (Nat.mod_eq_of_lt (by omega))

theorem bcd_ones_toNat (b : Byte) : ((bcd b)[2]).toNat = b.toNat % 10 :=
  (BitVec.toNat_ofNat _ _).trans (Nat.mod_eq_of_lt (by omega))

theorem exec_ldB (x : Reg) (s : State) : exec (.ldB x) s = s.storeAtI (bcd (s.reg x)) := rfl

/-! ### The statement -/

/-- Settles O32: a store at `I` of the three digits, which raises where the last of them would lie past memory. -/
theorem bcdStoreResult : Obligations.BcdStoreResult := by
  intro x s
  rw [exec_ldB]
  have hlen := bcd_length (s.reg x)
  refine ⟨fun hpast => State.storeAtI_of_lt (by omega) (by omega), fun hfits hwf => ?_⟩
  have hl : s.i.toNat + (bcd (s.reg x)).length ≤ 4096 := by omega
  have hdigit {k : Nat} (hk : k < (bcd (s.reg x)).length) :
      ((s.storedAtI (bcd (s.reg x))).byteAt (s.dataAddr k)).toNat = ((bcd (s.reg x))[k]).toNat :=
    congrArg BitVec.toNat (State.storedAtI_byteAt hwf hl hk)
  exact ⟨_, State.storeAtI_of_le hl, Keeps.storedAtI s fun b hlo hhi => ⟨hlo, hhi⟩,
    (hdigit (by omega)).trans (bcd_hundreds_toNat _), (hdigit (by omega)).trans (bcd_tens_toNat _),
    (hdigit (by omega)).trans (bcd_ones_toNat _), s.storedAtI_pc _⟩

end Sys2Proof.Machine
end

section
/-! PROOF. The load of the index register LD I, nnn (44_index_memory R150): the frame of a write of `I`, and the
instruction's equation. -/

namespace Sys2Proof.Machine

/-- Where `I` may change, a write of it reaches nothing else. -/
theorem Keeps.setI {w : Writes} {s t : State} (h : Keeps w s t) (hw : w.i) (v : Word) : Keeps w s (t.setI v) := by
  obtain ⟨hreg, -, hrest⟩ := h
  exact ⟨hreg, fun hn => absurd hw hn, hrest⟩

theorem exec_ldI (nnn : Addr12) (s : State) : exec (.ldI nnn) s = .next (s.setI (addrWord nnn)).advance := rfl

/-- Settles O30: a write of `I` with the widened address, and the default advance. -/
theorem ldIResult : Obligations.LdIResult := fun nnn s =>
  ⟨_, exec_ldI nnn s, ((Keeps.refl _ s).setI trivial _).advance, addrWord_toNat nnn, State.advance_pc _⟩

end Sys2Proof.Machine
end

section
/-! PROOF. The clear of the display CLS (45_display R160): the frame of a write of the display, and the instruction's
equation. -/

namespace Sys2Proof.Machine

/-- Where the display may change, a write of it reaches nothing else. -/
theorem Keeps.setDisp {w : Writes} {s t : State} (h : Keeps w s t) (hw : w.disp) (d : Display) :
    Keeps w s (t.setDisp d) := by
  obtain ⟨hreg, hi, hmem, hstack, -, hrest⟩ := h
  exact ⟨hreg, hi, hmem, hstack, fun hn => absurd hw hn, hrest⟩

theorem exec_cls (s : State) : exec .cls s = .next (s.setDisp Display.clear).advance := rfl

/-- Settles O37: a write of the blank display, every cell of which reads 0, and the default advance. -/
theorem clsResult : Obligations.ClsResult := fun s =>
  ⟨_, exec_cls s, ((Keeps.refl _ s).setDisp trivial _).advance, Display.cell_clear, State.advance_pc _⟩

end Sys2Proof.Machine
end

section
/-! PROOF. The timer copies LD Vx, DT, LD DT, Vx and LD ST, Vx (47_timers R180 to R182): the frames of a write of each
timer, and the instructions' equations. -/

namespace Sys2Proof.Machine

/-- Where the delay timer may change, a write of it reaches nothing else. -/
theorem Keeps.setDT {w : Writes} {s t : State} (h : Keeps w s t) (hw : w.dt) (b : Byte) : Keeps w s (t.setDT b) := by
  obtain ⟨hreg, hi, hmem, hstack, hdisp, hkey, -, hrest⟩ := h
  exact ⟨hreg, hi, hmem, hstack, hdisp, hkey, fun hn => absurd hw hn, hrest⟩

/-- Where the sound timer may change, a write of it reaches nothing else. -/
theorem Keeps.setST {w : Writes} {s t : State} (h : Keeps w s t) (hw : w.st) (b : Byte) : Keeps w s (t.setST b) := by
  obtain ⟨hreg, hi, hmem, hstack, hdisp, hkey, hdt, -, hrest⟩ := h
  exact ⟨hreg, hi, hmem, hstack, hdisp, hkey, hdt, fun hn => absurd hw hn, hrest⟩

theorem exec_ldVxDT (x : Reg) (s : State) : exec (.ldVxDT x) s = .next (s.setReg x s.dt).advance := rfl

theorem exec_ldDTVx (x : Reg) (s : State) : exec (.ldDTVx x) s = .next (s.setDT (s.reg x)).advance := rfl

theorem exec_ldSTVx (x : Reg) (s : State) : exec (.ldSTVx x) s = .next (s.setST (s.reg x)).advance := rfl

/-! ### The statement -/

/-- Settles O44: each copy is one write, of `V[x]`, `DT` or `ST`, and the default advance. -/
theorem timerCopyResults : Obligations.TimerCopyResults := by
  intro x s
  refine ⟨?fromDT, ?toDT, ?toST⟩
  case fromDT =>
    exact ⟨_, exec_ldVxDT x s, ((Keeps.refl _ s).setReg rfl _).advance, s.setReg_reg_self x s.dt, State.advance_pc _⟩
  case toDT =>
    exact ⟨_, exec_ldDTVx x s, ((Keeps.refl _ s).setDT trivial _).advance, s.setDT_dt (s.reg x), State.advance_pc _⟩
  case toST =>
    exact ⟨_, exec_ldSTVx x s, ((Keeps.refl _ s).setST trivial _).advance, s.setST_st (s.reg x), State.advance_pc _⟩

end Sys2Proof.Machine
end

section
/-! PROOF. The `reset` event (70_reset_and_hazards R250): what memory reads after `FONT` is written at 0, below 80 and
from 80 on. -/

namespace Sys2Proof.Machine

/-- `reset` leaves `FONT` in memory from address 0. -/
theorem hostReset_byteAt_font (s : State) (a : Fin 80) : (hostReset s).byteAt a.val = s.cfg.font.get a := by
  have hlen : s.cfg.font.toList.length = 80 := s.cfg.font.length_toList
  have hread := Memory.read_writeList_inside s.cfg.font.toList (m := []) (a := 0) (k := a.val) rfl
    (by omega) (by omega)
  rw [Nat.zero_add, Vector.getElem_toList] at hread
  exact hread

/-- The write of `FONT` ends at 80, and an unlisted address from there on reads as 0. -/
theorem hostReset_byteAt_above (s : State) {a : Nat} (h : 80 ≤ a) : (hostReset s).byteAt a = 0 := by
  have hlen : s.cfg.font.toList.length = 80 := s.cfg.font.length_toList
  calc (hostReset s).byteAt a
    _ = Memory.read [] a := Memory.read_writeList_outside s.cfg.font.toList [] (by omega)
    _ = 0 := Memory.unlisted_above h

/-! ### The statement -/

/-- Settles O48: every field but memory is a constant of the reset state, the registers, stack, display and keys each one
value repeated; memory is the write of `FONT` over nothing. -/
theorem resetValues : Obligations.ResetValues := by
  rintro s _ rfl
  have hreg : ∀ r, (hostReset s).reg r = 0 := Vector.get_replicate 16 0
  have hstack : ∀ j, (hostReset s).stack.get j = 0 := Vector.get_replicate 32 0
  have hpixel : ∀ cx cy, (hostReset s).pixel cx cy = false := Display.cell_clear
  have hkey : ∀ k, (hostReset s).keyAt k = false := Vector.get_replicate 16 false
  exact ⟨hreg, rfl, rfl, rfl, hstack, hpixel, hkey, rfl, rfl, rfl, hostReset_byteAt_font s,
    fun _ => hostReset_byteAt_above s, rfl⟩

end Sys2Proof.Machine
end

section
/-! PROOF. The decoder and the encoder are inverse to each other, and decoding is first match (30_encoding R74, R75, R83).
The families with a sub-table (0, 8, E, F) are settled first, each by its own rows; the word is then cut at its family. -/

namespace Sys2Proof

/-! ### Decoding a packed word -/

/-- Settles O1: the fields of a packed word are what was packed; an UNKNOWN row and `SYS` are selected because a
well-formed instruction of them has operands that no earlier row takes. -/
theorem decodeEncodeRoundTrip : Obligations.DecodeEncodeRoundTrip := by
  intro i hwf
  cases i with
  | cls | ret => rfl
  | sys nnn => simpa [encode, decodeWord] using decode0_eq_sys hwf
  | unknown8 x y n => simpa [encode, decodeWord] using decode8_eq_unknown8 hwf
  | unknownE x kk => simpa [encode, decodeWord] using decodeE_eq_unknownE hwf
  | unknownF x kk => simpa [encode, decodeWord] using decodeF_eq_unknownF hwf
  | ldReg | orReg | andReg | xorReg | addReg | subReg | shr | subn | shl => simp [encode, decodeWord, decode8]
  | skp | sknp => simp [encode, decodeWord, decodeE]
  | ldVxDT | ldVxK | ldDTVx | ldSTVx | addIVx | ldF | ldB | ldIVx | ldVxI => simp [encode, decodeWord, decodeF]
  | jp | call | seImm | sneImm | seReg | ldImm | addImm | sneReg | ldI | jpV0 | rnd | drw => simp [encode, decodeWord]

/-! ### A word is its fields -/

theorem packNNN_of_fam {w : Word} {f : Nibble} (h : (fieldFam w).toNat = f.toNat) : packNNN f (fieldNNN w) = w := by
  apply BitVec.eq_of_toNat_eq
  rw [packNNN_toNat, ← h, fieldFam_toNat, fieldNNN_toNat]
  omega

theorem packXKK_of_fam {w : Word} {f : Nibble} (h : (fieldFam w).toNat = f.toNat) :
    packXKK f (fieldX w) (fieldKK w) = w := by
  apply BitVec.eq_of_toNat_eq
  rw [packXKK_toNat, ← h, fieldFam_toNat, fieldX_val, fieldKK_toNat]
  omega

theorem packXYN_of_fam {w : Word} {f : Nibble} (h : (fieldFam w).toNat = f.toNat) :
    packXYN f (fieldX w) (fieldY w) (fieldN w) = w := by
  apply BitVec.eq_of_toNat_eq
  rw [packXYN_toNat, ← h, fieldFam_toNat, fieldX_val, fieldY_val, fieldN_toNat]
  omega

/-! ### What a sub-table decodes is well-formed and encodes to its operands -/

theorem decode0_roundTrip (nnn : Addr12) : (decode0 nnn).wf = true ∧ encode (decode0 nnn) = packNNN 0x0 nnn := by
  unfold decode0
  split
  · next h => rw [h]; exact ⟨rfl, rfl⟩
  · next hcls =>
    split
    · next h => rw [h]; exact ⟨rfl, rfl⟩
    · next hret => exact ⟨by simpa [Instr.wf] using ⟨hcls, hret⟩, rfl⟩

theorem decode8_roundTrip (x y : Reg) (n : Nibble) :
    (decode8 x y n).wf = true ∧ encode (decode8 x y n) = packXYN 0x8 x y n := by
  unfold decode8
  split <;> simp_all [Instr.wf, aluNibbles, encode, packXYN_toNat, BitVec.toNat_eq]

theorem decodeE_roundTrip (x : Reg) (kk : Byte) :
    (decodeE x kk).wf = true ∧ encode (decodeE x kk) = packXKK 0xE x kk := by
  unfold decodeE
  split <;> simp_all [Instr.wf, keyBytes, encode, packXKK_toNat, BitVec.toNat_eq]

theorem decodeF_roundTrip (x : Reg) (kk : Byte) :
    (decodeF x kk).wf = true ∧ encode (decodeF x kk) = packXKK 0xF x kk := by
  unfold decodeF
  split <;> simp_all [Instr.wf, miscBytes, encode, packXKK_toNat, BitVec.toNat_eq]

/-- Settles O2: in each family the word is the packing of its fields, which the row of the family, or the family's
sub-table, decodes and encodes back. -/
theorem encodeDecodeRoundTrip : Obligations.EncodeDecodeRoundTrip := by
  intro w
  have hlt := (fieldFam w).isLt
  unfold decodeWord
  split
  · next h => exact (decode0_roundTrip _).imp_right fun e => e.trans (packNNN_of_fam h)
  · next h => exact ⟨rfl, packNNN_of_fam h⟩
  · next h => exact ⟨rfl, packNNN_of_fam h⟩
  · next h => exact ⟨rfl, packXKK_of_fam h⟩
  · next h => exact ⟨rfl, packXKK_of_fam h⟩
  · next h => exact ⟨rfl, packXYN_of_fam h⟩
  · next h => exact ⟨rfl, packXKK_of_fam h⟩
  · next h => exact ⟨rfl, packXKK_of_fam h⟩
  · next h => exact (decode8_roundTrip _ _ _).imp_right fun e => e.trans (packXYN_of_fam h)
  · next h => exact ⟨rfl, packXYN_of_fam h⟩
  · next h => exact ⟨rfl, packNNN_of_fam h⟩
  · next h => exact ⟨rfl, packNNN_of_fam h⟩
  · next h => exact ⟨rfl, packXKK_of_fam h⟩
  · next h => exact ⟨rfl, packXYN_of_fam h⟩
  · next h => exact (decodeE_roundTrip _ _).imp_right fun e => e.trans (packXKK_of_fam h)
  · have h : (fieldFam w).toNat = 15 := by
      simp only [imp_false] at *
      omega
    exact (decodeF_roundTrip _ _).imp_right fun e => e.trans (packXKK_of_fam h)

/-! ### First match within a family -/

/-- The rows of one family, in their order. -/
def familyRows (f : Nibble) : List OpcodeRow := opcodeRows.filter fun r => fieldFam r.value == f

/-- The order number of the first row of a list that a word matches. -/
def firstOf (rows : List OpcodeRow) (w : Word) : Option Nat :=
  (rows.find? fun r => w &&& r.mask == r.value).map OpcodeRow.order

/-- Every mask covers the family, so a word matches no row of another family. -/
theorem fieldFam_eq_of_match {w : Word} {r : OpcodeRow} (hr : r ∈ opcodeRows) (h : w &&& r.mask = r.value) :
    fieldFam r.value = fieldFam w := by
  have hmask : ∀ q ∈ opcodeRows, fieldFam q.mask = 0xF := by decide
  rw [← h, fieldFam, BitVec.extractLsb'_and]
  change fieldFam w &&& fieldFam r.mask = _
  rw [hmask r hr]
  exact BitVec.and_allOnes

theorem firstMatch_eq_firstOf_familyRows (w : Word) : firstMatch w = firstOf (familyRows (fieldFam w)) w := by
  rw [firstMatch, firstOf, familyRows, List.find?_filter]
  refine congrArg _ (List.find?_congr fun r hr => ?_)
  by_cases h : w &&& r.mask = r.value
  · simp [h, fieldFam_eq_of_match hr h]
  · simp [h]

/-- A row is passed over unless the masked word is its value, compared as numbers. -/
theorem firstOf_cons (r : OpcodeRow) (rows : List OpcodeRow) (w : Word) :
    firstOf (r :: rows) w = if (w &&& r.mask).toNat = r.value.toNat then some r.order else firstOf rows w := by
  rw [if_congr BitVec.toNat_inj rfl rfl, firstOf, firstOf, List.find?_cons]
  by_cases h : w &&& r.mask = r.value
  · rw [if_pos h, h, beq_self_eq_true]
    rfl
  · rw [if_neg h, beq_false_of_ne h]

theorem mask_fam_toNat (w : Word) : (w &&& 0xF000).toNat = 4096 * (fieldFam w).toNat := by
  rw [mask_fam, packNNN_toNat, Nat.mul_comm]
  simp

theorem mask_famN_toNat (w : Word) : (w &&& 0xF00F).toNat = (fieldN w).toNat + 4096 * (fieldFam w).toNat := by
  rw [mask_famN, packNNN_toNat, BitVec.toNat_setWidth_of_le (by decide), Nat.add_comm, Nat.mul_comm]

theorem mask_famKK_toNat (w : Word) : (w &&& 0xF0FF).toNat = (fieldKK w).toNat + 4096 * (fieldFam w).toNat := by
  rw [mask_famKK, packNNN_toNat, BitVec.toNat_setWidth_of_le (by decide), Nat.add_comm, Nat.mul_comm]

theorem firstOf_family0 {w : Word} (h : (fieldFam w).toNat = 0) :
    firstOf (familyRows 0) w = some (decode0 (fieldNNN w)).rowOrder := by
  have hrows : familyRows 0 = opcodeRows.take 3 := rfl
  have hall : (w &&& 0xFFFF).toNat = (fieldNNN w).toNat := by
    change (w &&& BitVec.allOnes 16).toNat = _
    rw [BitVec.and_allOnes, fieldNNN_toNat]
    rw [fieldFam_toNat] at h
    omega
  have hF := mask_fam_toNat w
  rw [hrows]
  unfold decode0
  split
  · simp_all [firstOf_cons, opcodeRows, opcodeRowsLow, Instr.rowOrder]
  · split <;> simp_all [firstOf_cons, opcodeRows, opcodeRowsLow, Instr.rowOrder, BitVec.toNat_eq]

theorem firstOf_family8 {w : Word} (h : (fieldFam w).toNat = 8) :
    firstOf (familyRows 8) w = some (decode8 (fieldX w) (fieldY w) (fieldN w)).rowOrder := by
  have hrows : familyRows 8 = opcodeRows.extract 10 20 := rfl
  have hN := mask_famN_toNat w
  have hF := mask_fam_toNat w
  rw [hrows]
  unfold decode8
  split <;> simp_all [firstOf_cons, opcodeRows, opcodeRowsLow, Instr.rowOrder]

theorem firstOf_familyE {w : Word} (h : (fieldFam w).toNat = 14) :
    firstOf (familyRows 14) w = some (decodeE (fieldX w) (fieldKK w)).rowOrder := by
  have hrows : familyRows 14 = opcodeRows.extract 25 28 := rfl
  have hN := mask_famKK_toNat w
  have hF := mask_fam_toNat w
  rw [hrows]
  unfold decodeE
  split <;> simp_all [firstOf_cons, opcodeRows, opcodeRowsLow, opcodeRowsHigh, Instr.rowOrder]

theorem firstOf_familyF {w : Word} (h : (fieldFam w).toNat = 15) :
    firstOf (familyRows 15) w = some (decodeF (fieldX w) (fieldKK w)).rowOrder := by
  have hrows : familyRows 15 = opcodeRows.extract 28 38 := rfl
  have hN := mask_famKK_toNat w
  have hF := mask_fam_toNat w
  rw [hrows]
  unfold decodeF
  split <;> simp_all [firstOf_cons, opcodeRows, opcodeRowsLow, opcodeRowsHigh, Instr.rowOrder]

theorem firstMatch_of_fam {w : Word} {f : Nibble} (h : (fieldFam w).toNat = f.toNat) :
    firstMatch w = firstOf (familyRows f) w := by
  rw [firstMatch_eq_firstOf_familyRows, BitVec.eq_of_toNat_eq h]

/-- A family of one row, whose mask is the family alone, is matched by each of its words. -/
theorem firstMatch_of_single {w : Word} {f : Nibble} {k : Nat} (h : (fieldFam w).toNat = f.toNat)
    (hrows : familyRows f = [⟨k, 0xF000, packNNN f 0⟩]) : firstMatch w = some k := by
  have hmatch : (w &&& 0xF000).toNat = (packNNN f 0).toNat := by
    rw [mask_fam, BitVec.eq_of_toNat_eq h]
  rw [firstMatch_of_fam h, hrows, firstOf_cons]
  exact if_pos hmatch

/-- Settles O3: only the rows of the word's own family can match; a family with a sub-table is searched in the order in
which its decoder looks. -/
theorem decoderIsFirstMatch : Obligations.DecoderIsFirstMatch := by
  intro w
  have hlt := (fieldFam w).isLt
  unfold decodeWord
  split
  · next h => exact (firstMatch_of_fam (f := 0x0) h).trans (firstOf_family0 h)
  · next h => exact firstMatch_of_single (f := 0x1) h rfl
  · next h => exact firstMatch_of_single (f := 0x2) h rfl
  · next h => exact firstMatch_of_single (f := 0x3) h rfl
  · next h => exact firstMatch_of_single (f := 0x4) h rfl
  · next h => exact firstMatch_of_single (f := 0x5) h rfl
  · next h => exact firstMatch_of_single (f := 0x6) h rfl
  · next h => exact firstMatch_of_single (f := 0x7) h rfl
  · next h => exact (firstMatch_of_fam (f := 0x8) h).trans (firstOf_family8 h)
  · next h => exact firstMatch_of_single (f := 0x9) h rfl
  · next h => exact firstMatch_of_single (f := 0xA) h rfl
  · next h => exact firstMatch_of_single (f := 0xB) h rfl
  · next h => exact firstMatch_of_single (f := 0xC) h rfl
  · next h => exact firstMatch_of_single (f := 0xD) h rfl
  · next h => exact (firstMatch_of_fam (f := 0xE) h).trans (firstOf_familyE h)
  · have h : (fieldFam w).toNat = 15 := by
      simp only [imp_false] at *
      omega
    exact (firstMatch_of_fam (f := 0xF) h).trans (firstOf_familyF h)

end Sys2Proof
end

section
/-! PROOF. The remaining instructions on registers, `I` and `pc` alone: SYS (40_control_flow R102), the skips on two
registers (41_skips R112, R113), ADD Vx, kk and RND (42_register_immediate R121, R122), the copies, the logic and the
shifts (43_alu R130 to R133, R136, R138), the index arithmetic (44_index_memory R151, R152), and the identities of R140. -/

namespace Sys2Proof.Machine

/-! ### Frames and reads of a register write that advances -/

theorem Keeps.putReg {w : Writes} {s t : State} (h : Keeps w s t) {x : Reg} (hx : w.regs x) (b : Byte) :
    Keeps w s (t.putReg x b) :=
  (h.setReg hx b).advance

/-- Where draws may be counted, counting one reaches nothing else. -/
theorem Keeps.countDraw {w : Writes} {s t : State} (h : Keeps w s t) (hw : w.draws) : Keeps w s t.countDraw := by
  obtain ⟨hreg, hi, hmem, hstack, hdisp, hkey, hdt, hst, -, hrest⟩ := h
  exact ⟨hreg, hi, hmem, hstack, hdisp, hkey, hdt, hst, fun hn => absurd hw hn, hrest⟩

theorem State.putReg_reg (s : State) (x : Reg) (b : Byte) (q : Reg) :
    (s.putReg x b).reg q = if q = x then b else s.reg q :=
  s.setReg_reg x b q

theorem State.putReg_reg_self (s : State) (x : Reg) (b : Byte) : (s.putReg x b).reg x = b :=
  s.setReg_reg_self x b

theorem State.putReg_pc (s : State) (x : Reg) (b : Byte) : (s.putReg x b).pc = s.pc + 2 := rfl

/-! ### One equation per instruction -/

theorem exec_sys (nnn : Addr12) (s : State) : exec (.sys nnn) s = .next s.advance := rfl

theorem exec_seReg (x y : Reg) (n : Nibble) (s : State) :
    exec (.seReg x y n) s = .next (s.skipIf (s.reg x == s.reg y)) := rfl

theorem exec_sneReg (x y : Reg) (n : Nibble) (s : State) :
    exec (.sneReg x y n) s = .next (s.skipIf (s.reg x != s.reg y)) := rfl

theorem exec_addImm (x : Reg) (kk : Byte) (s : State) :
    exec (.addImm x kk) s = .next (s.putReg x (BitVec.ofNat 8 ((s.reg x).toNat + kk.toNat))) := rfl

theorem exec_rnd (x : Reg) (kk : Byte) (s : State) :
    exec (.rnd x kk) s = .next (s.setReg x (Config.randomByte s.draws &&& kk)).countDraw.advance := rfl

theorem exec_ldReg (x y : Reg) (s : State) : exec (.ldReg x y) s = .next (s.putReg x (s.reg y)) := rfl

theorem exec_orReg (x y : Reg) (s : State) : exec (.orReg x y) s = .next (s.putReg x (s.reg x ||| s.reg y)) := rfl

theorem exec_andReg (x y : Reg) (s : State) : exec (.andReg x y) s = .next (s.putReg x (s.reg x &&& s.reg y)) := rfl

theorem exec_xorReg (x y : Reg) (s : State) : exec (.xorReg x y) s = .next (s.putReg x (s.reg x ^^^ s.reg y)) := rfl

/-- `VF <- f`, THEN `V[x] <- g` of the `V[x]` that left, then the advance: the order of SHR and SHL (00_scope R18). -/
def State.putFlagThenReg (s : State) (x : Reg) (f : Byte) (g : Byte → Byte) : State :=
  (s.setFlag f).putReg x (g ((s.setFlag f).reg x))

theorem exec_shr (x y : Reg) (s : State) :
    exec (.shr x y) s = .next (s.putFlagThenReg x (lowBit (s.reg x)) (· >>> 1)) := rfl

theorem exec_shl (x y : Reg) (s : State) :
    exec (.shl x y) s = .next (s.putFlagThenReg x (highBit (s.reg x)) (· <<< 1)) := rfl

theorem exec_addIVx (x : Reg) (s : State) :
    exec (.addIVx x) s = .next (s.setI (BitVec.ofNat 16 (s.i.toNat + (s.reg x).toNat))).advance := rfl

theorem exec_ldF (x : Reg) (s : State) :
    exec (.ldF x) s = .next (s.setI (BitVec.ofNat 16 ((s.reg x).toNat * 5))).advance := rfl

/-! ### A flag, then a shifted register -/

theorem Keeps.putFlagThenReg {w : Writes} {s t : State} (h : Keeps w s t) {x : Reg} (hx : w.regs x) (hvf : w.regs vf)
    (f : Byte) (g : Byte → Byte) : Keeps w s (t.putFlagThenReg x f g) :=
  (h.setReg hvf f).putReg hx _

theorem State.putFlagThenReg_pc (s : State) (x : Reg) (f : Byte) (g : Byte → Byte) :
    (s.putFlagThenReg x f g).pc = s.pc + 2 := rfl

/-- Other than `VF`, the register shifts what it held. -/
theorem State.putFlagThenReg_reg_of_ne {x : Reg} (hx : x ≠ vf) (s : State) (f : Byte) (g : Byte → Byte) :
    (s.putFlagThenReg x f g).reg x = g (s.reg x) := by
  rw [State.putFlagThenReg, State.putReg_reg_self, State.setFlag_reg, if_neg hx]

theorem State.putFlagThenReg_reg_vf_of_ne {x : Reg} (hx : x ≠ vf) (s : State) (f : Byte) (g : Byte → Byte) :
    (s.putFlagThenReg x f g).reg vf = f := by
  rw [State.putFlagThenReg, State.putReg_reg, if_neg hx.symm, State.setFlag_reg, if_pos rfl]

/-- `VF` itself shifts the flag just written (00_scope R18). -/
theorem State.putFlagThenReg_vf (s : State) (f : Byte) (g : Byte → Byte) : (s.putFlagThenReg vf f g).reg vf = g f := by
  rw [State.putFlagThenReg, State.putReg_reg_self, State.setFlag_reg, if_pos rfl]

/-! ### Bits and shifts as numbers -/

theorem lowBit_toNat (a : Byte) : (lowBit a).toNat = a.toNat % 2 := by
  simp [lowBit, Nat.and_one_is_mod]

theorem highBit_toNat (a : Byte) : (highBit a).toNat = a.toNat / 128 := by
  have := a.isLt
  simp only [highBit, BitVec.toNat_and, BitVec.toNat_ushiftRight, Nat.shiftRight_eq_div_pow]
  change a.toNat / 128 &&& 1 = _
  rw [Nat.and_one_is_mod]
  omega

theorem byte_shiftRight_one_toNat (a : Byte) : (a >>> 1).toNat = a.toNat / 2 := by
  simp [Nat.shiftRight_eq_div_pow]

theorem byte_shiftLeft_one_toNat (a : Byte) : (a <<< 1).toNat = 2 * a.toNat % 256 := by
  simp [Nat.shiftLeft_eq, Nat.mul_comm]

/-! ### The statements -/

/-- Settles O13: SYS is the default advance alone. -/
theorem sysOnlyAdvances : Obligations.SysOnlyAdvances := fun nnn s =>
  ⟨_, exec_sys nnn s, (Keeps.refl _ s).advance, State.advance_pc s⟩

/-- Settles O21: both forms are a skip, whose test does not read the low nibble. -/
theorem registerSkipResults : Obligations.RegisterSkipResults := by
  intro x y n s
  constructor
  · exact ⟨_, exec_seReg x y n s, (Keeps.refl _ s).skipIf _, s.skipIf_pc_of_iff (byte_beq_iff_toNat_eq _ _)⟩
  · exact ⟨_, exec_sneReg x y n s, (Keeps.refl _ s).skipIf _, s.skipIf_pc_of_iff (byte_bne_iff_toNat_ne _ _)⟩

/-- Settles O23: a write of the sum modulo 256 to `V[x]` alone. -/
theorem addImmResult : Obligations.AddImmResult := by
  intro x kk s
  refine ⟨_, exec_addImm x kk s, (Keeps.refl _ s).putReg rfl _, ?_, fun hx => ?_, s.putReg_pc x _⟩
  · rw [State.putReg_reg_self, BitVec.toNat_ofNat]
  · rw [State.putReg_reg, if_neg hx.symm]

/-- Settles O24: the draw at the present count, masked, and the count one higher. -/
theorem rndResult : Obligations.RndResult := fun x kk s =>
  ⟨_, exec_rnd x kk s, (((Keeps.refl _ s).setReg rfl _).countDraw trivial).advance, s.setReg_reg_self x _, rfl, rfl⟩

/-- What the copy and logic forms share: a write of `V[x]` and the default advance. -/
theorem putReg_result {r : Result} {s : State} {x : Reg} {b : Byte} (h : r = .next (s.putReg x b)) :
    ∃ t, r = .next t ∧ Keeps { regs := fun q => q = x } s t ∧ t.reg x = b ∧ t.pc = s.pc + 2 :=
  ⟨_, h, (Keeps.refl _ s).putReg rfl b, s.putReg_reg_self x b, s.putReg_pc x b⟩

/-- Settles O25: four writes of `V[x]` and none of a flag. -/
theorem copyAndLogicResults : Obligations.CopyAndLogicResults := fun x y s =>
  ⟨putReg_result (exec_ldReg x y s), putReg_result (exec_orReg x y s), putReg_result (exec_andReg x y s),
    putReg_result (exec_xorReg x y s)⟩

/-- Settles O28: for `x` other than `0xF` the register shifts what it held; for `x = 0xF` it shifts the flag, which is
0 or 1. -/
theorem shiftResults : Obligations.ShiftResults := by
  intro x y s
  constructor
  · refine ⟨_, exec_shr x y s, (Keeps.refl _ s).putFlagThenReg (Or.inl rfl) (Or.inr rfl) _ _, fun hx => ⟨?_, ?_⟩, ?_,
      s.putFlagThenReg_pc x _ _⟩
    · rw [State.putFlagThenReg_reg_of_ne hx, byte_shiftRight_one_toNat]
    · rw [State.putFlagThenReg_reg_vf_of_ne hx, lowBit_toNat]
    · rintro rfl
      rw [State.putFlagThenReg_vf, byte_shiftRight_one_toNat, lowBit_toNat]
      omega
  · refine ⟨_, exec_shl x y s, (Keeps.refl _ s).putFlagThenReg (Or.inl rfl) (Or.inr rfl) _ _, fun hx => ⟨?_, ?_⟩, ?_,
      s.putFlagThenReg_pc x _ _⟩
    · rw [State.putFlagThenReg_reg_of_ne hx, byte_shiftLeft_one_toNat]
    · rw [State.putFlagThenReg_reg_vf_of_ne hx, highBit_toNat]
    · rintro rfl
      have := (s.reg vf).isLt
      rw [State.putFlagThenReg_vf, byte_shiftLeft_one_toNat, highBit_toNat]
      omega

/-- Settles O31: the sum wraps at 16 bits; five times a byte does not reach the wrap. -/
theorem indexArithmeticResults : Obligations.IndexArithmeticResults := by
  intro x s
  have hlt := (s.reg x).isLt
  constructor
  · exact ⟨_, exec_addIVx x s, ((Keeps.refl _ s).setI trivial _).advance, BitVec.toNat_ofNat _ _, State.advance_pc _⟩
  · exact ⟨_, exec_ldF x s, ((Keeps.refl _ s).setI trivial _).advance,
      (BitVec.toNat_ofNat _ _).trans (Nat.mod_eq_of_lt (by omega)), State.advance_pc _⟩

/-- An outcome is at most one next state. -/
theorem next_unique {r : Result} {t u : State} (ht : r = .next t) (hu : r = .next u) : t = u :=
  Host.Outcome.next.inj (ht.symm.trans hu)

/-- Settles O29: each identity is arithmetic on the results of O26, O27 and O28. -/
theorem arithmeticLosesNothing : Obligations.ArithmeticLosesNothing := by
  intro x y s t hx
  have hvx := (s.reg x).isLt
  have hvy := (s.reg y).isLt
  obtain ⟨a, ha, -, hsum, hcarry, -⟩ := addRegResult x y s
  obtain ⟨⟨b, hb, -, hsub, hborrow, -⟩, c, hc, -, hsubn, hborrown, -⟩ := subtractResults x y s
  obtain ⟨⟨d, hd, -, hshr, -, -⟩, e, he, -, hshl, -, -⟩ := shiftResults x y s
  refine ⟨fun h => ?_, fun h => ?_, fun h => ?_, fun h => ?_, fun h => ?_⟩
  · have := hsum hx
    rw [next_unique h ha]
    split at hcarry <;> omega
  · have := hsub hx
    rw [next_unique h hb]
    split at hborrow <;> omega
  · have := hsubn hx
    rw [next_unique h hc]
    split at hborrown <;> omega
  · obtain ⟨hhalf, hlow⟩ := hshr hx
    rw [next_unique h hd]
    omega
  · obtain ⟨hdouble, hhigh⟩ := hshl hx
    rw [next_unique h he]
    omega

end Sys2Proof.Machine
end

section
/-! PROOF. The register store LD [I], Vx and the register load LD Vx, [I] (44_index_memory R154, R155), either side of the
memory bound; the load after the store (20_memory R58) and the fetch after the store (R60). With them the step as a fetch
and an `exec` (40_control_flow R100). -/

namespace Sys2Proof.Machine

/-! ### The step -/

/-- Settles O5: a word is fixed by its value, and the fetch forms the word of the two bytes at `pc`. -/
theorem stepRunsDecodedInstruction : Obligations.StepRunsDecodedInstruction := by
  intro s hpc w hw
  have hword : wordOfBytes (s.byteAt s.pc.toNat) (s.byteAt (s.pc.toNat + 1)) = w :=
    BitVec.eq_of_toNat_eq ((wordOfBytes_toNat _ _).trans hw.symm)
  exact step_of_fetch (hword ▸ fetch_ok hpc)

theorem step_of_pc_above {s : State} (h : 4094 < s.pc.toNat) : step s = .fault .outOfBounds := by
  rw [step, fetch_error h]
  rfl

/-- Settles O6: the fetch checks its bound before it reads memory. -/
theorem fetchPastMemoryFaults : Obligations.FetchPastMemoryFaults := fun _ => step_of_pc_above

/-! ### The store -/

/-- A store at `I` that gives a next state had its bytes in memory. -/
theorem State.storeAtI_next {s t : State} {bs : List Byte} (hpos : 0 < bs.length) (h : s.storeAtI bs = .next t) :
    s.i.toNat + bs.length ≤ 4096 ∧ t = s.storedAtI bs := by
  by_cases hl : s.i.toNat + bs.length ≤ 4096
  · exact ⟨hl, next_unique h (State.storeAtI_of_le hl)⟩
  · rw [State.storeAtI_of_lt hpos (by omega)] at h
    cases h

theorem exec_ldIVx (x : Reg) (s : State) : exec (.ldIVx x) s = s.storeAtI (s.regsUpTo x) := rfl

theorem exec_ldIVx_of_lt {x : Reg} {s : State} (h : s.i.toNat + x.val > 4095) :
    exec (.ldIVx x) s = .fault .outOfBounds := by
  have hlen := s.regsUpTo_length x
  exact (exec_ldIVx x s).trans (State.storeAtI_of_lt (by omega) (by omega))

theorem exec_ldIVx_of_le {x : Reg} {s : State} (h : s.i.toNat + x.val ≤ 4095) :
    exec (.ldIVx x) s = .next (s.storedAtI (s.regsUpTo x)) := by
  have hlen := s.regsUpTo_length x
  exact (exec_ldIVx x s).trans (State.storeAtI_of_le (by omega))

theorem exec_ldIVx_next {x : Reg} {s t : State} (h : exec (.ldIVx x) s = .next t) :
    s.i.toNat + x.val ≤ 4095 ∧ t = s.storedAtI (s.regsUpTo x) := by
  have hlen := s.regsUpTo_length x
  obtain ⟨hl, ht⟩ := State.storeAtI_next (by omega) ((exec_ldIVx x s).symm.trans h)
  exact ⟨by omega, ht⟩

theorem Keeps.storedRegs (s : State) (x : Reg) :
    Keeps { mem := fun a => s.dataAddr 0 ≤ a ∧ a ≤ s.dataAddr x.val } s (s.storedAtI (s.regsUpTo x)) := by
  have hlen := s.regsUpTo_length x
  refine Keeps.storedAtI s fun b hlo hhi => ⟨hlo, ?_⟩
  rw [State.dataAddr]
  omega

/-- Register `k` is stored at `I + k`. -/
theorem State.storedRegs_byteAt {s : State} {x : Reg} (hwf : s.mem.wf = true) (h : s.i.toNat + x.val ≤ 4095) {k : Reg}
    (hk : k ≤ x) : (s.storedAtI (s.regsUpTo x)).byteAt (s.dataAddr k.val) = s.reg k := by
  have hlen := s.regsUpTo_length x
  have hkx : k.val ≤ x.val := hk
  exact (State.storedAtI_byteAt hwf (by omega) (by omega)).trans (s.regsUpTo_getElem x k.val (by omega))

/-- Settles O33: a store at `I` of the first `x + 1` registers, which raises where the last would lie past memory. -/
theorem registerStoreResult : Obligations.RegisterStoreResult := fun x s =>
  ⟨exec_ldIVx_of_lt, fun h hwf => ⟨_, exec_ldIVx_of_le h, Keeps.storedRegs s x,
    fun _ => State.storedRegs_byteAt hwf h, s.storedAtI_pc _⟩⟩

/-! ### The load -/

/-- The state a load from `I` leaves. -/
def State.loadedFromI (s : State) (x : Reg) : State :=
  (s.loadRegs 0 ((List.range (x.val + 1)).map fun k => s.byteAt (s.dataAddr k))).advance

theorem exec_ldVxI (x : Reg) (s : State) : exec (.ldVxI x) s = execLdVxI x s := rfl

theorem exec_ldVxI_of_lt {x : Reg} {s : State} (h : s.i.toNat + x.val > 4095) :
    exec (.ldVxI x) s = .fault .outOfBounds := by
  have hout : inMemory (s.dataAddr 0) (x.val + 1) = false := by
    rw [Bool.eq_false_iff, ne_eq, inMemory_iff, State.dataAddr]
    omega
  rw [exec_ldVxI, execLdVxI, State.memRead_error hout]
  rfl

theorem exec_ldVxI_of_le {x : Reg} {s : State} (h : s.i.toNat + x.val ≤ 4095) :
    exec (.ldVxI x) s = .next (s.loadedFromI x) := by
  have hin : inMemory (s.dataAddr 0) (x.val + 1) = true := by
    rw [inMemory_iff, State.dataAddr]
    omega
  rw [exec_ldVxI, execLdVxI, State.memRead_ok hin]
  rfl

theorem exec_ldVxI_next {x : Reg} {s t : State} (h : exec (.ldVxI x) s = .next t) :
    s.i.toNat + x.val ≤ 4095 ∧ t = s.loadedFromI x := by
  by_cases hx : s.i.toNat + x.val ≤ 4095
  · exact ⟨hx, next_unique h (exec_ldVxI_of_le hx)⟩
  · rw [exec_ldVxI_of_lt (by omega)] at h
    cases h

/-- The registers up to `x` hold the bytes from `I`, the others what they held. -/
theorem State.loadedFromI_reg (s : State) (x r : Reg) :
    (s.loadedFromI x).reg r = if r ≤ x then s.byteAt (s.dataAddr r.val) else s.reg r := by
  rw [State.loadedFromI, State.advance_reg, State.loadRegs_reg _ _ _ (by simp)]
  by_cases h : r ≤ x
  · have hr : r.val < x.val + 1 := Nat.lt_succ_of_le h
    simp [h, hr]
  · have hr : ¬ r.val < x.val + 1 := fun hlt => h (Nat.le_of_lt_succ hlt)
    simp [h, hr]

/-- A load writes registers and `pc`. -/
theorem State.loadedFromI_fields (s : State) (x : Reg) : ∃ v, s.loadedFromI x = { s with v := v, pc := s.pc + 2 } := by
  obtain ⟨v, hv⟩ := State.loadRegs_fields ((List.range (x.val + 1)).map fun k => s.byteAt (s.dataAddr k)) s 0
  exact ⟨v, by rw [State.loadedFromI, hv]; rfl⟩

theorem Keeps.loadedFromI (s : State) (x : Reg) : Keeps { regs := fun r => r ≤ x } s (s.loadedFromI x) := by
  have hreg : ∀ r, ¬ r ≤ x → (s.loadedFromI x).reg r = s.reg r := fun r hr =>
    (s.loadedFromI_reg x r).trans (if_neg hr)
  obtain ⟨v, hv⟩ := s.loadedFromI_fields x
  rw [hv] at hreg ⊢
  exact ⟨hreg, (Keeps.refl _ s).2⟩

theorem State.loadedFromI_pc (s : State) (x : Reg) : (s.loadedFromI x).pc = s.pc + 2 := by
  obtain ⟨v, hv⟩ := s.loadedFromI_fields x
  rw [hv]

/-- Settles O34: a load of the `x + 1` bytes from `I`, which raises where the last lies past memory. -/
theorem registerLoadResult : Obligations.RegisterLoadResult := fun x s =>
  ⟨exec_ldVxI_of_lt, fun h => ⟨_, exec_ldVxI_of_le h, Keeps.loadedFromI s x,
    fun k hk => (s.loadedFromI_reg x k).trans (if_pos hk), s.loadedFromI_pc x⟩⟩

/-! ### After a store -/

/-- Settles O35: the store leaves `I` and puts `V[k]` at `I + k`, where the load reads it. -/
theorem storeThenLoadGivesBack : Obligations.StoreThenLoadGivesBack := by
  intro x s t u hwf hstore humem hui
  obtain ⟨hx, rfl⟩ := exec_ldIVx_next hstore
  have hi : u.i = s.i := hui
  refine ⟨_, exec_ldVxI_of_le (by rw [hi]; exact hx), fun k hk => ?_⟩
  calc (u.loadedFromI x).reg k
    _ = u.byteAt (u.dataAddr k.val) := (u.loadedFromI_reg x k).trans (if_pos hk)
    _ = (s.storedAtI (s.regsUpTo x)).byteAt (s.dataAddr k.val) := by
      rw [State.byteAt, State.dataAddr, humem, hi]
      rfl
    _ = s.reg k := State.storedRegs_byteAt hwf hx hk

/-- Settles O36: `pc` after the store is the `I` it stored at, so the next fetch reads `V[0]` and `V[1]`. -/
theorem storeIsSeenByNextFetch : Obligations.StoreIsSeenByNextFetch := by
  intro x s t hwf hstore hx hipc
  obtain ⟨hbound, rfl⟩ := exec_ldIVx_next hstore
  have hpc : (s.storedAtI (s.regsUpTo x)).pc.toNat = s.i.toNat := by
    rw [State.storedAtI_pc, BitVec.toNat_add, hipc]
    change (s.pc.toNat + 2) % 65536 = _
    omega
  have hhi := State.storedRegs_byteAt hwf hbound (k := 0) (Fin.zero_le x)
  have hlo := State.storedRegs_byteAt hwf hbound (k := 1) hx
  have hfetch := fetch_ok (s := s.storedAtI (s.regsUpTo x)) (by omega)
  rw [hpc] at hfetch
  exact step_of_fetch (hfetch.trans (by rw [← hhi, ← hlo]; rfl))

end Sys2Proof.Machine
end

section
/-! PROOF. DRW Vx, Vy, n (45_display R161 to R167): the spec's sprite, its targets and its edge as the terms of the
drawing loop, one equation per outcome, and the two draws that restore the display. -/

namespace Sys2Proof.Machine

/-! ### The sprite of the spec and the rows of the loop -/

/-- The rows that DRW reads from `I`. -/
def State.spriteRows (s : State) (n : Nibble) : List Byte := (List.range n.toNat).map fun k => s.byteAt (s.dataAddr k)

theorem State.spriteRows_length (s : State) (n : Nibble) : (s.spriteRows n).length = n.toNat := by
  simp [State.spriteRows]

/-- A set bit of a row the loop reads is a set bit of the sprite. -/
theorem spriteSet_iff (s : State) (n : Nibble) (r c : Nat) :
    SpriteSet s n.toNat r c ↔
      ∃ h : r < (s.spriteRows n).length, c < 8 ∧ spriteBit (s.spriteRows n)[r] c = true := by
  simp [SpriteSet, State.spriteRows, and_left_comm]

/-- The cells the loop targets are those that the sprite targets (45_display R161, R162). -/
theorem mem_targets_spriteRows (s : State) (x y : Reg) (n : Nibble) (cx : Fin 64) (cy : Fin 32) :
    (cx, cy) ∈ targets (s.reg x).toNat (s.reg y).toNat 0 (s.spriteRows n) ↔ SpriteTargets s x y n cx cy := by
  rw [mem_targets]
  refine exists_congr fun r => exists_congr fun c => ?_
  rw [spriteSet_iff, Prod.mk.injEq, Fin.ext_iff, Fin.ext_iff, Nat.zero_add, exists_and_right.symm]
  simp only [and_assoc]
  rfl

/-- The edge check finds exactly a sprite that leaves the grid (45_display R163). -/
theorem crossesEdge_spriteRows (s : State) (x y : Reg) (n : Nibble) :
    crossesEdge (s.reg x).toNat (s.reg y).toNat 0 (s.spriteRows n) = true ↔ SpriteLeavesGrid s x y n := by
  rw [crossesEdge_iff]
  refine exists_congr fun r => exists_congr fun c => ?_
  rw [spriteSet_iff, Nat.zero_add, exists_and_right.symm]
  simp only [and_assoc]

theorem not_spriteAllowed_iff (s : State) (x y : Reg) (n : Nibble) :
    ¬ SpriteAllowed s x y n ↔ s.cfg.drawEdge = .reject ∧ SpriteLeavesGrid s x y n := by
  rw [SpriteAllowed, not_or, not_not]
  cases s.cfg.drawEdge <;> simp

theorem inMemory_iff_spriteReadable (s : State) (n : Nibble) :
    inMemory (s.dataAddr 0) n.toNat = true ↔ SpriteReadable s n := by
  rw [inMemory_iff, SpriteReadable, State.dataAddr, Nat.add_zero]

/-! ### One equation per outcome -/

/-- The state a draw leaves. -/
def State.drawn (s : State) (x y : Reg) (n : Nibble) : State :=
  let d := drawRows (s.reg x).toNat (s.reg y).toNat 0 (s.spriteRows n) (s.disp, false)
  ((s.setDisp d.1).setFlag (flagByte d.2)).advance

theorem exec_drw (x y : Reg) (n : Nibble) (s : State) : exec (.drw x y n) s = execDrw x y n s := rfl

/-- With its rows in memory, a draw is rejected or completes by the edge alone. -/
theorem exec_drw_of_readable {s : State} {n : Nibble} (h : SpriteReadable s n) (x y : Reg) :
    exec (.drw x y n) s =
      if crossesEdge (s.reg x).toNat (s.reg y).toNat 0 (s.spriteRows n) && (s.cfg.drawEdge == .reject)
      then .fault .outOfBounds else .next (s.drawn x y n) := by
  rw [exec_drw, execDrw, State.memRead_ok ((inMemory_iff_spriteReadable s n).mpr h)]
  rfl

theorem exec_drw_of_not_readable {s : State} {n : Nibble} (h : ¬ SpriteReadable s n) (x y : Reg) :
    exec (.drw x y n) s = .fault .outOfBounds := by
  have hout := mt (inMemory_iff_spriteReadable s n).mp h
  rw [exec_drw, execDrw, State.memRead_error (Bool.eq_false_iff.mpr hout)]
  rfl

theorem exec_drw_of_allowed {s : State} {x y : Reg} {n : Nibble} (hr : SpriteReadable s n)
    (ha : SpriteAllowed s x y n) : exec (.drw x y n) s = .next (s.drawn x y n) := by
  rw [exec_drw_of_readable hr]
  refine if_neg fun h => ?_
  rw [Bool.and_eq_true, beq_iff_eq, crossesEdge_spriteRows] at h
  exact (not_spriteAllowed_iff s x y n).mpr h.symm ha

theorem exec_drw_of_not_allowed {s : State} {x y : Reg} {n : Nibble} (h : ¬ SpriteAllowed s x y n) :
    exec (.drw x y n) s = .fault .outOfBounds := by
  by_cases hr : SpriteReadable s n
  · rw [exec_drw_of_readable hr]
    refine if_pos ?_
    rw [Bool.and_eq_true, beq_iff_eq, crossesEdge_spriteRows]
    exact ((not_spriteAllowed_iff s x y n).mp h).symm
  · exact exec_drw_of_not_readable hr x y

theorem exec_drw_next {s t : State} {x y : Reg} {n : Nibble} (h : exec (.drw x y n) s = .next t) :
    SpriteReadable s n ∧ SpriteAllowed s x y n ∧ t = s.drawn x y n := by
  by_cases hr : SpriteReadable s n
  · by_cases ha : SpriteAllowed s x y n
    · exact ⟨hr, ha, next_unique h (exec_drw_of_allowed hr ha)⟩
    · rw [exec_drw_of_not_allowed ha] at h
      cases h
  · rw [exec_drw_of_not_readable hr] at h
    cases h

/-! ### What a draw does -/

theorem Keeps.drawn (s : State) (x y : Reg) (n : Nibble) :
    Keeps { regs := fun r => r = vf, disp := True } s (s.drawn x y n) :=
  (((Keeps.refl _ s).setDisp trivial _).setReg rfl _).advance

theorem State.drawn_pc (s : State) (x y : Reg) (n : Nibble) : (s.drawn x y n).pc = s.pc + 2 := rfl

theorem State.spriteRows_length_le (s : State) (n : Nibble) : (s.spriteRows n).length ≤ 32 := by
  have hn := n.isLt
  rw [State.spriteRows_length]
  omega

theorem State.drawn_pixel_of_target {s : State} {x y : Reg} {n : Nibble} {cx : Fin 64} {cy : Fin 32}
    (h : SpriteTargets s x y n cx cy) : (s.drawn x y n).pixel cx cy = !s.pixel cx cy := by
  have hcell := (drawRows_spec (s.reg x).toNat (s.reg y).toNat _ s.disp (s.spriteRows_length_le n)).1 cx cy
  rw [decide_eq_true ((mem_targets_spriteRows s x y n cx cy).mpr h), Bool.xor_true] at hcell
  exact hcell

theorem State.drawn_pixel_of_not_target {s : State} {x y : Reg} {n : Nibble} {cx : Fin 64} {cy : Fin 32}
    (h : ¬ SpriteTargets s x y n cx cy) : (s.drawn x y n).pixel cx cy = s.pixel cx cy := by
  have hcell := (drawRows_spec (s.reg x).toNat (s.reg y).toNat _ s.disp (s.spriteRows_length_le n)).1 cx cy
  rw [decide_eq_false (mt (mem_targets_spriteRows s x y n cx cy).mp h), Bool.xor_false] at hcell
  exact hcell

/-- Some targeted cell is 1 before the draw. -/
def Collides (s : State) (x y : Reg) (n : Nibble) : Prop :=
  ∃ cx cy, SpriteTargets s x y n cx cy ∧ s.pixel cx cy = true

/-- The flag says whether the draw met a collision (45_display R161). -/
theorem State.drawn_reg_vf (s : State) (x y : Reg) (n : Nibble) :
    ∃ c, (s.drawn x y n).reg vf = flagByte c ∧ (c = true ↔ Collides s x y n) := by
  refine ⟨_, (State.setFlag_reg _ _ vf).trans (if_pos rfl), ?_⟩
  rw [(drawRows_spec (s.reg x).toNat (s.reg y).toNat _ s.disp (s.spriteRows_length_le n)).2, List.any_eq_true,
    Prod.exists]
  exact exists_congr fun cx => exists_congr fun cy => and_congr_left fun _ => mem_targets_spriteRows s x y n cx cy

theorem State.drawn_reg_vf_of_collides {s : State} {x y : Reg} {n : Nibble} (h : Collides s x y n) :
    (s.drawn x y n).reg vf = 1 := by
  obtain ⟨c, hflag, hc⟩ := s.drawn_reg_vf x y n
  rw [hflag, hc.mpr h]
  rfl

theorem State.drawn_reg_vf_of_not_collides {s : State} {x y : Reg} {n : Nibble} (h : ¬ Collides s x y n) :
    (s.drawn x y n).reg vf = 0 := by
  obtain ⟨c, hflag, hc⟩ := s.drawn_reg_vf x y n
  rw [hflag, Bool.eq_false_iff.mpr (mt hc.mp h)]
  rfl

/-- Settles O38: the loop inverts each targeted cell once, and writes the flag last. -/
theorem drwResult : Obligations.DrwResult := fun x y n s hr ha =>
  ⟨_, exec_drw_of_allowed hr ha, Keeps.drawn s x y n, fun _ _ => State.drawn_pixel_of_target,
    fun _ _ => State.drawn_pixel_of_not_target, State.drawn_reg_vf_of_collides, State.drawn_reg_vf_of_not_collides,
    s.drawn_pc x y n⟩

/-- Settles O39: rows past memory are not readable, and a sprite that leaves the grid is not allowed under `reject`. -/
theorem drwFaults : Obligations.DrwFaults := by
  intro x y n s
  constructor
  · intro hpos hpast
    refine exec_drw_of_not_readable (fun hr => ?_) x y
    rw [SpriteReadable] at hr
    omega
  · intro hreject hleaves
    exact exec_drw_of_not_allowed ((not_spriteAllowed_iff s x y n).mpr ⟨hreject, hleaves⟩)

/-! ### The second draw -/

/-- Two states that agree on what a sprite is read from have the same sprite. -/
theorem spriteSet_congr {s u : State} (hi : u.i = s.i) (hmem : u.mem = s.mem) (n r c : Nat) :
    SpriteSet u n r c ↔ SpriteSet s n r c := by
  rw [SpriteSet, SpriteSet, State.byteAt, State.byteAt, State.dataAddr, State.dataAddr, hi, hmem]

theorem spriteTargets_congr {s u : State} {x y : Reg} (hx : u.reg x = s.reg x) (hy : u.reg y = s.reg y)
    (hi : u.i = s.i) (hmem : u.mem = s.mem) (n : Nibble) (cx : Fin 64) (cy : Fin 32) :
    SpriteTargets u x y n cx cy ↔ SpriteTargets s x y n cx cy := by
  simp only [SpriteTargets, spriteSet_congr hi hmem, hx, hy]

theorem spriteAllowed_congr {s u : State} {x y : Reg} (hx : u.reg x = s.reg x) (hy : u.reg y = s.reg y)
    (hi : u.i = s.i) (hmem : u.mem = s.mem) (hcfg : u.cfg = s.cfg) (n : Nibble) :
    SpriteAllowed u x y n ↔ SpriteAllowed s x y n := by
  simp only [SpriteAllowed, SpriteLeavesGrid, spriteSet_congr hi hmem, hx, hy, hcfg]

theorem spriteReadable_congr {s u : State} (hi : u.i = s.i) (n : Nibble) : SpriteReadable u n ↔ SpriteReadable s n := by
  rw [SpriteReadable, SpriteReadable, hi]

/-- Settles O40: the second draw has the first one's sprite and targets, so each targeted cell is inverted twice; a cell
that was 0 before the first draw is 1 before the second. -/
theorem drawingTwiceRestores : Obligations.DrawingTwiceRestores := by
  intro x y n s t u hxvf hyvf hdraw hv hi hmem hdisp hcfg
  obtain ⟨hr, ha, rfl⟩ := exec_drw_next hdraw
  have hreg {q : Reg} (hq : q ≠ vf) : u.reg q = s.reg q := by
    rw [State.reg, hv]
    exact (Keeps.drawn s x y n).1 q hq
  have hpixel cx cy : u.pixel cx cy = (s.drawn x y n).pixel cx cy := by
    rw [State.pixel, hdisp]
    rfl
  have htargets := spriteTargets_congr (hreg hxvf) (hreg hyvf) hi hmem n
  have hru := (spriteReadable_congr (s := s) (u := u) hi n).mpr hr
  have hau := (spriteAllowed_congr (hreg hxvf) (hreg hyvf) hi hmem hcfg n).mpr ha
  refine ⟨_, exec_drw_of_allowed hru hau, fun cx cy => ?_, fun hzero => ⟨?_, fun hone => ?_⟩⟩
  · by_cases h : SpriteTargets s x y n cx cy
    · rw [State.drawn_pixel_of_target ((htargets cx cy).mpr h), hpixel, State.drawn_pixel_of_target h, Bool.not_not]
    · rw [State.drawn_pixel_of_not_target (mt (htargets cx cy).mp h), hpixel, State.drawn_pixel_of_not_target h]
  · rintro ⟨cx, cy, h⟩
    refine State.drawn_reg_vf_of_collides ⟨cx, cy, (htargets cx cy).mpr h, ?_⟩
    have hdark : s.pixel cx cy = false := by
      refine Bool.eq_false_iff.mpr fun hlit => ?_
      rw [State.drawn_reg_vf_of_collides ⟨cx, cy, h, hlit⟩] at hzero
      exact absurd hzero (by decide)
    rw [hpixel, State.drawn_pixel_of_target h, hdark, Bool.not_false]
  · by_contra hnone
    have hmiss : ¬ Collides u x y n := fun ⟨cx, cy, h, _⟩ => hnone ⟨cx, cy, (htargets cx cy).mp h⟩
    rw [State.drawn_reg_vf_of_not_collides hmiss] at hone
    exact absurd hone (by decide)

end Sys2Proof.Machine
end

section
/-! PROOF. Keys, timers and read ports: the key queries and the wait for a key (46_keyboard R170 to R175), and the host
events that write the latch and the timers or read the state (60_exceptions R213 to R215, R218, R219). -/

namespace Sys2Proof.Machine

/-! ### Frames -/

/-- A latch cell that may change may be written; a write to it reaches nothing else. -/
theorem Keeps.setKey {w : Writes} {s t : State} (h : Keeps w s t) {k : Reg} (hw : w.key k) (p : Bool) :
    Keeps w s (t.setKey k p) := by
  obtain ⟨hreg, hi, hmem, hstack, hdisp, hkey, hrest⟩ := h
  refine ⟨hreg, hi, hmem, hstack, hdisp, fun q hq => ?_, hrest⟩
  have hne : q ≠ k := fun e => hq (e ▸ hw)
  rw [State.setKey_keyAt, if_neg hne, hkey q hq]

theorem State.setKey_keyAt_self (s : State) (k : Reg) (p : Bool) : (s.setKey k p).keyAt k = p :=
  (s.setKey_keyAt k p k).trans (if_pos rfl)

/-- Of two writes to one latch cell the last stands. -/
theorem State.setKey_setKey (s : State) (k : Reg) (p q : Bool) : (s.setKey k p).setKey k q = s.setKey k q := by
  simp [State.setKey]

/-! ### Queries -/

/-- The state a query of key `k` leaves: the latch consumed, and the skip when it was `want`. -/
def State.queried (s : State) (k : Reg) (want : Bool) : State := (s.setKey k false).skipIf (s.keyAt k == want)

theorem exec_skp (x : Reg) (s : State) : exec (.skp x) s = s.skipOnKey x true := rfl

theorem exec_sknp (x : Reg) (s : State) : exec (.sknp x) s = s.skipOnKey x false := rfl

theorem State.skipOnKey_of_key {s : State} {x k : Reg} (h : (s.reg x).toNat = k.val) (want : Bool) :
    s.skipOnKey x want = .next (s.queried k want) := by
  rw [State.skipOnKey, keyOfByte_some h]
  rfl

theorem State.skipOnKey_of_lt {s : State} {x : Reg} (h : 15 < (s.reg x).toNat) (want : Bool) :
    s.skipOnKey x want = .fault .outOfBounds := by
  rw [State.skipOnKey, keyOfByte_none h]
  rfl

theorem State.skipOnKey_next {s t : State} {x : Reg} {want : Bool} (h : s.skipOnKey x want = .next t) :
    ∃ k : Reg, (s.reg x).toNat = k.val ∧ t = s.queried k want := by
  obtain ⟨k, hk, hnext⟩ | ⟨-, hfault⟩ := s.skipOnKey_cases x want
  · exact ⟨k, hk, next_unique h hnext⟩
  · rw [hfault] at h
    cases h

/-- What both queries share; `want` is the latch value that skips. -/
theorem skipOnKey_result {s : State} {x k : Reg} (h : (s.reg x).toNat = k.val) (want : Bool) :
    ∃ t, s.skipOnKey x want = .next t ∧ Keeps { key := fun q => q = k } s t ∧ t.keyAt k = false ∧
      t.pc = if s.keyAt k = want then s.pc + 4 else s.pc + 2 :=
  ⟨_, State.skipOnKey_of_key h want, ((Keeps.refl _ s).setKey rfl _).skipIf _, s.setKey_keyAt_self k false,
    (s.setKey k false).skipIf_pc_of_iff beq_iff_eq⟩

/-- Settles O41: SKP skips on a latched key, SKNP on one that is not. -/
theorem keySkipResults : Obligations.KeySkipResults := by
  intro x k s h
  rw [exec_skp, exec_sknp]
  exact ⟨skipOnKey_result h true, skipOnKey_result h false⟩

/-- Settles O42: a byte above 15 names no key. -/
theorem keyIndexOutOfRangeFaults : Obligations.KeyIndexOutOfRangeFaults := by
  intro x s h
  rw [exec_skp, exec_sknp]
  exact ⟨State.skipOnKey_of_lt h true, State.skipOnKey_of_lt h false⟩

/-! ### The wait for a key -/

/-- The state that taking key `k` into `V[x]` leaves. -/
def State.tookKey (s : State) (x k : Reg) : State := ((s.setReg x (BitVec.ofNat 8 k.val)).setKey k false).advance

theorem exec_ldVxK (x : Reg) (s : State) : exec (.ldVxK x) s = execLdVxK x s := rfl

theorem exec_ldVxK_of_none {s : State} (h : s.leastKey = none) (x : Reg) : exec (.ldVxK x) s = .next s := by
  rw [exec_ldVxK, execLdVxK, h]

theorem exec_ldVxK_of_some {s : State} {k : Reg} (h : s.leastKey = some k) (x : Reg) :
    exec (.ldVxK x) s = .next (s.tookKey x k) := by
  rw [exec_ldVxK, execLdVxK, h]
  rfl

theorem exec_ldVxK_next {s t : State} {x : Reg} (h : exec (.ldVxK x) s = .next t) :
    t = s ∨ ∃ k, s.keyAt k = true ∧ t = s.tookKey x k := by
  cases hk : s.leastKey with
  | none => exact Or.inl (next_unique h (exec_ldVxK_of_none hk x))
  | some k => exact Or.inr ⟨k, (State.leastKey_some.mp hk).1, next_unique h (exec_ldVxK_of_some hk x)⟩

theorem Keeps.tookKey {w : Writes} {s t : State} (h : Keeps w s t) {x k : Reg} (hx : w.regs x) (hk : w.key k) :
    Keeps w s (t.tookKey x k) :=
  ((h.setReg hx _).setKey hk _).advance

theorem State.tookKey_pc (s : State) (x k : Reg) : (s.tookKey x k).pc = s.pc + 2 := rfl

theorem State.tookKey_reg_toNat (s : State) (x k : Reg) : ((s.tookKey x k).reg x).toNat = k.val := by
  have hk := k.isLt
  have hreg : (s.tookKey x k).reg x = BitVec.ofNat 8 k.val := s.setReg_reg_self x _
  rw [hreg, BitVec.toNat_ofNat]
  omega

theorem State.tookKey_keyAt (s : State) (x k : Reg) : (s.tookKey x k).keyAt k = false :=
  State.setKey_keyAt_self _ k false

/-- Settles O43: with no key latched the state stays; else the least latched key goes to `V[x]` and its latch is
consumed. -/
theorem waitKeyResult : Obligations.WaitKeyResult := by
  intro x s
  refine ⟨fun hnone => exec_ldVxK_of_none (State.leastKey_none.mpr hnone) x, fun k hk hleast => ?_⟩
  exact ⟨_, exec_ldVxK_of_some (State.leastKey_some.mpr ⟨hk, hleast⟩) x, (Keeps.refl _ s).tookKey rfl rfl,
    s.tookKey_reg_toNat x k, s.tookKey_keyAt x k, s.tookKey_pc x k⟩

/-! ### Key and timer events -/

theorem hostEvent_keyEvent (k : Reg) (p : Bool) (s : State) : hostEvent (.keyEvent k p) s = ⟨s.setKey k p, .ok⟩ := rfl

theorem hostEvent_timerTick (s : State) : hostEvent .timerTick s = ⟨timerTick s, .ok⟩ := rfl

theorem countDown_toNat (b : Byte) : (countDown b).toNat = b.toNat - 1 := by
  unfold countDown
  split
  · next h => rw [h]; rfl
  · next h =>
    have hpos : b.toNat ≠ 0 := fun e => h (BitVec.eq_of_toNat_eq e)
    have hlt := b.isLt
    rw [BitVec.toNat_sub]
    change (2 ^ 8 - 1 + b.toNat) % 2 ^ 8 = _
    omega

/-- Settles O57: one write of a latch cell; one write of each timer. -/
theorem keyAndTimerEvents : Obligations.KeyAndTimerEvents := by
  intro s
  constructor
  · exact fun k p => ⟨_, hostEvent_keyEvent k p s, (Keeps.refl _ s).setKey rfl p, s.setKey_keyAt_self k p, rfl⟩
  · exact ⟨_, hostEvent_timerTick s, ((Keeps.refl _ s).setDT trivial _).setST trivial _, countDown_toNat s.dt,
      countDown_toNat s.st, rfl⟩

/-- Settles O58: the release overwrites the press; and the first query of a press consumes the latch, so that the second
finds it clear. -/
theorem pressIsSeenOnce : Obligations.PressIsSeenOnce := by
  refine ⟨fun k s => ?_, fun x k s hx => ?_⟩
  · simp only [hostEvent_keyEvent, State.setKey_setKey]
  · obtain ⟨⟨t, hfirst, hkeep, hclear, hpc⟩, -⟩ := keySkipResults x k (s.setKey k true) hx
    have htx : (t.reg x).toNat = k.val := by
      rw [hkeep.1 x not_false]
      exact hx
    obtain ⟨⟨u, hsecond, -, -, hpc'⟩, -⟩ := keySkipResults x k t htx
    rw [if_pos (s.setKey_keyAt_self k true)] at hpc
    rw [if_neg (by rw [hclear]; decide)] at hpc'
    exact ⟨t, hfirst, hpc, u, hsecond, hpc'⟩

/-! ### Read ports -/

theorem displayRows_length : ∀ rows : List (Vector Bool 64),
    (rows.flatMap fun row => row.toList).length = 64 * rows.length
  | [] => rfl
  | row :: rest => by
    rw [List.flatMap_cons, List.length_append, displayRows_length rest, row.length_toList, List.length_cons]
    omega

/-- Cell `c` of row `r` stands at `r * 64 + c` when rows of 64 cells are joined. -/
theorem displayRows_getElem? (c : Fin 64) : ∀ (rows : List (Vector Bool 64)) (r : Nat),
    (rows.flatMap fun row => row.toList)[r * 64 + c.val]? = rows[r]?.map fun row => row.get c
  | [], _ => rfl
  | row :: rest, 0 => by
    have hc : c.val < row.toList.length := by
      rw [row.length_toList]
      exact c.isLt
    rw [List.flatMap_cons, Nat.zero_mul, Nat.zero_add, List.getElem?_append_left hc, List.getElem?_eq_getElem hc]
    simp [Vector.get_eq_getElem]
  | row :: rest, r + 1 => by
    have hindex : (r + 1) * 64 + c.val - row.toList.length = r * 64 + c.val := by
      rw [row.length_toList]
      omega
    rw [List.flatMap_cons, List.getElem?_append_right (by rw [row.length_toList]; omega), hindex,
      displayRows_getElem? c rest r, List.getElem?_cons_succ]

theorem displayCells_length (s : State) : (displayCells s).length = 2048 := by
  rw [displayCells, displayRows_length, s.disp.length_toList]

theorem displayCells_getElem? (s : State) (cx : Fin 64) (cy : Fin 32) :
    (displayCells s)[cy.val * 64 + cx.val]? = some (s.pixel cx cy) := by
  have hcy : cy.val < s.disp.toList.length := by
    rw [s.disp.length_toList]
    exact cy.isLt
  rw [displayCells, displayRows_getElem?, List.getElem?_eq_getElem hcy]
  simp [State.pixel, Display.cell, Vector.get_eq_getElem]

/-- Settles O59: the 32 rows joined put cell (`cx`, `cy`) at `cy * 64 + cx`; the registers are copied. -/
theorem readPortsShowTheState : Obligations.ReadPortsShowTheState := fun s =>
  ⟨⟨displayCells s, rfl, displayCells_length s, displayCells_getElem? s⟩,
    snapshot s, rfl, fun _ => rfl, rfl, rfl, rfl, rfl, rfl⟩

end Sys2Proof.Machine
end

section
/-! PROOF. What holds of every instruction: how `exec` ends (60_exceptions R200, R202), what it writes (10_state R31, columns
'written by') and where `pc` goes (40_control_flow R101). An instruction whose outcome depends on the state enters by its
equations, one per outcome; the others complete in every state. -/

namespace Sys2Proof.Machine

/-! ### CALL and RET that complete -/

theorem sp_full_or (s : State) : s.sp.val = 32 ∨ ∃ j : Fin 32, s.sp.val = j.val := by
  have hsp := s.sp.isLt
  by_cases h : s.sp.val = 32
  · exact Or.inl h
  · exact Or.inr ⟨⟨s.sp.val, by omega⟩, rfl⟩

theorem sp_empty_or (s : State) : s.sp.val = 0 ∨ ∃ j : Fin 32, s.sp.val = j.val + 1 := by
  have hsp := s.sp.isLt
  by_cases h : s.sp.val = 0
  · exact Or.inl h
  · exact Or.inr ⟨⟨s.sp.val - 1, by omega⟩, by simp only; omega⟩

theorem exec_call_next {nnn : Addr12} {s t : State} (h : exec (.call nnn) s = .next t) :
    ∃ j : Fin 32, s.sp.val = j.val ∧
      t = (s.setStack (s.stack.set j.val (s.pc + 2) j.isLt) j.succ).setPc (addrWord nnn) := by
  obtain hfull | ⟨j, hj⟩ := sp_full_or s
  · rw [exec_call_of_full hfull] at h
    cases h
  · exact ⟨j, hj, next_unique h (exec_call_at hj nnn)⟩

theorem exec_ret_next {s t : State} (h : exec .ret s = .next t) :
    ∃ j : Fin 32, s.sp.val = j.val + 1 ∧ t = (s.setStack s.stack j.castSucc).setPc (s.stack.get j) := by
  obtain hempty | ⟨j, hj⟩ := sp_empty_or s
  · rw [exec_ret_of_empty hempty] at h
    cases h
  · exact ⟨j, hj, next_unique h (exec_ret_at hj)⟩

/-- Settles O18: the pop reads the cell that the push wrote. -/
theorem retReturnsAfterCall : Obligations.RetReturnsAfterCall := by
  intro nnn s t u hcall hstack hsp
  obtain ⟨j, hj, rfl⟩ := exec_call_next hcall
  have hdepth : u.sp.val = j.val + 1 := by
    rw [hsp]
    rfl
  refine ⟨_, exec_ret_at hdepth, ?_, Fin.ext hj.symm⟩
  rw [State.setPc_pc, hstack]
  exact (stack_get_set s.stack j j _).trans (if_pos rfl)

/-- Settles O19: the jump writes the `pc` that stands there already. -/
theorem selfJumpChangesNothing : Obligations.SelfJumpChangesNothing := by
  intro nnn s hpc hfetch
  have htarget : addrWord nnn = s.pc := BitVec.eq_of_toNat_eq ((addrWord_toNat nnn).trans hpc.symm)
  rw [step_of_fetch hfetch, decodeEncodeRoundTrip (.jp nnn) rfl, exec_jp, htarget]
  rfl

/-! ### How an instruction ends -/

/-- An instruction either completes and the table of R200 names no error, or raises the one error that the table names. -/
def EndsAsListed (i : Instr) (s : State) : Prop :=
  (∃ t, exec i s = .next t ∧ ∀ g, ¬ Raises i s g) ∨ ∃ f, exec i s = .fault f ∧ ∀ g, Raises i s g ↔ g = f

theorem EndsAsListed.of_total {i : Instr} {s t : State} (hr : ∀ g, ¬ Raises i s g) (h : exec i s = .next t) :
    EndsAsListed i s :=
  Or.inl ⟨t, h, hr⟩

/-- An instruction with one condition `p` under which it raises `f`. -/
theorem EndsAsListed.of_guard {i : Instr} {s : State} {p : Prop} {f : Fault} (hr : ∀ g, Raises i s g ↔ p ∧ g = f)
    (hfault : p → exec i s = .fault f) (hnext : ¬ p → ∃ t, exec i s = .next t) : EndsAsListed i s := by
  by_cases h : p
  · exact Or.inr ⟨f, hfault h, fun g => (hr g).trans (and_iff_right h)⟩
  · obtain ⟨t, ht⟩ := hnext h
    exact Or.inl ⟨t, ht, fun g hg => h ((hr g).mp hg).1⟩

theorem exec_ldB_of_lt {x : Reg} {s : State} (h : s.i.toNat + 2 > 4095) : exec (.ldB x) s = .fault .outOfBounds := by
  have hlen := bcd_length (s.reg x)
  exact (exec_ldB x s).trans (State.storeAtI_of_lt (by omega) (by omega))

theorem exec_ldB_of_le {x : Reg} {s : State} (h : s.i.toNat + 2 ≤ 4095) :
    exec (.ldB x) s = .next (s.storedAtI (bcd (s.reg x))) := by
  have hlen := bcd_length (s.reg x)
  exact (exec_ldB x s).trans (State.storeAtI_of_le (by omega))

theorem exec_ldB_next {x : Reg} {s t : State} (h : exec (.ldB x) s = .next t) :
    s.i.toNat + 2 ≤ 4095 ∧ t = s.storedAtI (bcd (s.reg x)) := by
  have hlen := bcd_length (s.reg x)
  obtain ⟨hl, ht⟩ := State.storeAtI_next (by omega) ((exec_ldB x s).symm.trans h)
  exact ⟨by omega, ht⟩

/-- A key query completes when the byte names a key. -/
theorem State.skipOnKey_of_not_lt {s : State} {x : Reg} (h : ¬ (s.reg x).toNat > 15) (want : Bool) :
    ∃ t, s.skipOnKey x want = .next t :=
  ⟨_, State.skipOnKey_of_key (k := ⟨(s.reg x).toNat, by omega⟩) rfl want⟩

theorem exec_ldVxK_completes (x : Reg) (s : State) : ∃ t, exec (.ldVxK x) s = .next t := by
  cases hk : s.leastKey with
  | none => exact ⟨_, exec_ldVxK_of_none hk x⟩
  | some k => exact ⟨_, exec_ldVxK_of_some hk x⟩

/-- Every instruction ends as the table of 60_exceptions R200 lists it. -/
theorem exec_endsAsListed (i : Instr) (s : State) : EndsAsListed i s := by
  cases i with
  | ret =>
    refine .of_guard (fun _ => Iff.rfl) exec_ret_of_empty fun h => ?_
    obtain ⟨j, hj⟩ := (sp_empty_or s).resolve_left h
    exact ⟨_, exec_ret_at hj⟩
  | call nnn =>
    refine .of_guard (fun _ => Iff.rfl) (fun h => exec_call_of_full h nnn) fun h => ?_
    obtain ⟨j, hj⟩ := (sp_full_or s).resolve_left h
    exact ⟨_, exec_call_at hj nnn⟩
  | unknown8 x y n => exact Or.inr ⟨_, exec_unknown8 x y n s, fun _ => Iff.rfl⟩
  | unknownE x kk => exact Or.inr ⟨_, exec_unknownE x kk s, fun _ => Iff.rfl⟩
  | unknownF x kk => exact Or.inr ⟨_, exec_unknownF x kk s, fun _ => Iff.rfl⟩
  | ldB x => exact .of_guard (fun _ => Iff.rfl) exec_ldB_of_lt fun h => ⟨_, exec_ldB_of_le (by omega)⟩
  | ldIVx x => exact .of_guard (fun _ => Iff.rfl) exec_ldIVx_of_lt fun h => ⟨_, exec_ldIVx_of_le (by omega)⟩
  | ldVxI x => exact .of_guard (fun _ => Iff.rfl) exec_ldVxI_of_lt fun h => ⟨_, exec_ldVxI_of_le (by omega)⟩
  | drw x y n =>
    refine .of_guard (fun _ => Iff.rfl) ?_ fun h => ?_
    · exact fun h => h.elim (fun hr => exec_drw_of_not_readable hr x y) exec_drw_of_not_allowed
    · obtain ⟨hr, ha⟩ := not_or.mp h
      exact ⟨_, exec_drw_of_allowed (not_not.mp hr) (not_not.mp ha)⟩
  | skp x => exact .of_guard (fun _ => Iff.rfl) (State.skipOnKey_of_lt · true) (State.skipOnKey_of_not_lt · true)
  | sknp x => exact .of_guard (fun _ => Iff.rfl) (State.skipOnKey_of_lt · false) (State.skipOnKey_of_not_lt · false)
  | ldVxK x =>
    obtain ⟨t, ht⟩ := exec_ldVxK_completes x s
    exact .of_total (fun _ h => h) ht
  | cls | sys | jp | seImm | sneImm | seReg | ldImm | addImm | ldReg | orReg | andReg | xorReg | addReg | subReg | shr
  | subn | shl | sneReg | ldI | jpV0 | rnd | ldVxDT | ldDTVx | ldSTVx | addIVx | ldF =>
    exact .of_total (fun _ h => h) rfl

/-- Settles O8: each instruction ends as listed. -/
theorem instructionRaisesExactly : Obligations.InstructionRaisesExactly := by
  intro i s f
  obtain ⟨t, ht, hnone⟩ | ⟨g, hg, hraises⟩ := exec_endsAsListed i s
  · rw [ht]
    exact iff_of_false nofun (hnone f)
  · rw [hg, hraises, Host.Outcome.fault.injEq, eq_comm]

/-- Settles O9: an instruction that does not complete raises the error that the table names. -/
theorem instructionCompletesUnlessItRaises : Obligations.InstructionCompletesUnlessItRaises := by
  intro i s hnone
  obtain ⟨t, ht, -⟩ | ⟨f, -, hraises⟩ := exec_endsAsListed i s
  · exact ⟨t, ht⟩
  · exact absurd ((hraises f).mpr rfl) (hnone f)

/-- No instruction raises `RomTooLarge` (70_reset_and_hazards R253). -/
theorem raises_ne_romTooLarge {i : Instr} {s : State} {f : Fault} (h : Raises i s f) : f ≠ .romTooLarge := by
  cases i with
  | unknown8 | unknownE | unknownF =>
    cases h
    decide
  | ret | call | ldB | ldIVx | ldVxI | drw | skp | sknp =>
    cases h.2
    decide
  | cls | sys | jp | seImm | sneImm | seReg | ldImm | addImm | ldReg | orReg | andReg | xorReg | addReg | subReg | shr
  | subn | shl | sneReg | ldI | jpV0 | rnd | ldVxDT | ldVxK | ldDTVx | ldSTVx | addIVx | ldF => exact h.elim

/-- A step gives a next state or raises an error other than `RomTooLarge`. -/
theorem step_next_or_fault (s : State) : (∃ t, step s = .next t) ∨ ∃ f, step s = .fault f ∧ f ≠ .romTooLarge := by
  obtain ⟨-, hexec⟩ | ⟨-, hfault⟩ := step_cases s
  · rw [hexec]
    obtain ⟨t, ht, -⟩ | ⟨f, hf, hraises⟩ := exec_endsAsListed (decodeWord _) s
    · exact Or.inl ⟨t, ht⟩
    · exact Or.inr ⟨f, hf, raises_ne_romTooLarge ((hraises f).mpr rfl)⟩
  · exact Or.inr ⟨_, hfault, by decide⟩

/-- Settles O7: of the five error kinds a step does not raise `RomTooLarge`. -/
theorem stepEndsAsSpecified : Obligations.StepEndsAsSpecified := by
  intro s
  obtain hnext | ⟨f, hf, hne⟩ := step_next_or_fault s
  · exact Or.inl hnext
  · rw [hf]
    cases f with
    | romTooLarge => exact absurd rfl hne
    | stackOverflow => exact Or.inr (Or.inl rfl)
    | stackUnderflow => exact Or.inr (Or.inr (Or.inl rfl))
    | invalidOpcode => exact Or.inr (Or.inr (Or.inr (Or.inl rfl)))
    | outOfBounds => exact Or.inr (Or.inr (Or.inr (Or.inr rfl)))

/-! ### What an instruction writes -/

/-- The frame of a key query, whose key is the one that `V[x]` names. -/
theorem Keeps.of_skipOnKey {s t : State} {x : Reg} {want : Bool} (h : s.skipOnKey x want = .next t) :
    Keeps { key := fun k => k.val = (s.reg x).toNat } s t := by
  obtain ⟨k, hk, rfl⟩ := State.skipOnKey_next h
  exact ((Keeps.refl _ s).setKey hk.symm _).skipIf _

/-- Settles O10: the frame of each instruction from the frames of the writes it is made of. -/
theorem instructionWritesOnlyItsOwn : Obligations.InstructionWritesOnlyItsOwn := by
  intro i s t h
  have hkeep : ∀ w, Keeps w s s := fun w => Keeps.refl w s
  cases i with
  | cls =>
    cases h
    exact ((hkeep _).setDisp trivial _).advance
  | ret =>
    obtain ⟨j, -, rfl⟩ := exec_ret_next h
    exact ((hkeep _).setStack trivial _ _).setPc _
  | call nnn =>
    obtain ⟨j, -, rfl⟩ := exec_call_next h
    exact ((hkeep _).setStack trivial _ _).setPc _
  | sys | jp | jpV0 | seImm | sneImm | seReg | sneReg =>
    cases h
    exact (hkeep _).setPc _
  | ldImm | addImm | ldReg | orReg | andReg | xorReg | ldVxDT =>
    cases h
    exact (hkeep _).putReg rfl _
  | addReg | subReg | subn =>
    cases h
    exact (hkeep _).putRegThenFlag (Or.inl rfl) (Or.inr rfl) _ _
  | shr x y =>
    cases next_unique h (exec_shr x y s)
    exact (hkeep _).putFlagThenReg (Or.inl rfl) (Or.inr rfl) _ _
  | shl x y =>
    cases next_unique h (exec_shl x y s)
    exact (hkeep _).putFlagThenReg (Or.inl rfl) (Or.inr rfl) _ _
  | unknown8 | unknownE | unknownF => cases h
  | ldI | addIVx | ldF =>
    cases h
    exact ((hkeep _).setI trivial _).advance
  | rnd =>
    cases h
    exact (((hkeep _).setReg rfl _).countDraw trivial).advance
  | drw x y n =>
    obtain ⟨-, -, rfl⟩ := exec_drw_next h
    exact Keeps.drawn s x y n
  | skp | sknp => exact Keeps.of_skipOnKey h
  | ldVxK x =>
    obtain rfl | ⟨k, hk, rfl⟩ := exec_ldVxK_next h
    · exact hkeep _
    · exact (hkeep _).tookKey rfl hk
  | ldDTVx =>
    cases h
    exact ((hkeep _).setDT trivial _).advance
  | ldSTVx =>
    cases h
    exact ((hkeep _).setST trivial _).advance
  | ldB x =>
    obtain ⟨-, rfl⟩ := exec_ldB_next h
    exact Keeps.storedAtI s fun b hlo hhi => ⟨hlo, hhi⟩
  | ldIVx x =>
    obtain ⟨-, rfl⟩ := exec_ldIVx_next h
    exact Keeps.storedRegs s x
  | ldVxI x =>
    obtain ⟨-, rfl⟩ := exec_ldVxI_next h
    exact Keeps.loadedFromI s x

/-! ### Where `pc` goes -/

theorem State.skipIf_pc_cases (s : State) (c : Bool) : (s.skipIf c).pc = s.pc + 2 ∨ (s.skipIf c).pc = s.pc + 4 := by
  cases c
  · exact Or.inl rfl
  · exact Or.inr rfl

/-- Settles O11: each instruction but the four control transfers ends in an advance, a skip or a wait. -/
theorem defaultAdvanceOfPc : Obligations.DefaultAdvanceOfPc := by
  intro i s t h
  cases i with
  | jp | call | ret | jpV0 => trivial
  | ldVxK x =>
    obtain rfl | ⟨k, -, rfl⟩ := exec_ldVxK_next h
    · exact Or.inr rfl
    · exact Or.inl (s.tookKey_pc x k)
  | seImm | sneImm | seReg | sneReg =>
    cases h
    exact s.skipIf_pc_cases _
  | skp | sknp =>
    obtain ⟨k, -, rfl⟩ := State.skipOnKey_next h
    exact (s.setKey k false).skipIf_pc_cases _
  | ldB x =>
    obtain ⟨-, rfl⟩ := exec_ldB_next h
    exact s.storedAtI_pc _
  | ldIVx x =>
    obtain ⟨-, rfl⟩ := exec_ldIVx_next h
    exact s.storedAtI_pc _
  | ldVxI x =>
    obtain ⟨-, rfl⟩ := exec_ldVxI_next h
    exact s.loadedFromI_pc x
  | drw x y n =>
    obtain ⟨-, -, rfl⟩ := exec_drw_next h
    exact s.drawn_pc x y n
  | unknown8 | unknownE | unknownF => cases h
  | cls | sys | ldImm | addImm | ldReg | orReg | andReg | xorReg | addReg | subReg | shr | subn | shl | ldI | rnd
  | ldVxDT | ldDTVx | ldSTVx | addIVx | ldF =>
    cases h
    rfl

end Sys2Proof.Machine
end

section
/-! PROOF. The invariant `State.Inv` (10_state R23, R25; 00_scope R6): it holds after reset, every step keeps each of its
parts, and so does every host event, a tick by induction over its steps. -/

namespace Sys2Proof.Machine

/-! ### Each part of the invariant over one instruction -/

/-- An instruction leaves memory as it is, or is a store at `I` within memory. -/
theorem exec_mem_cases {i : Instr} {s t : State} (h : exec i s = .next t) :
    t.mem = s.mem ∨ ∃ bs : List Byte, s.i.toNat + bs.length ≤ 4096 ∧ t.mem = s.mem.writeList s.i.toNat bs := by
  cases i with
  | ldB x =>
    obtain ⟨hle, rfl⟩ := exec_ldB_next h
    have hlen := bcd_length (s.reg x)
    exact Or.inr ⟨_, by omega, rfl⟩
  | ldIVx x =>
    obtain ⟨hle, rfl⟩ := exec_ldIVx_next h
    have hlen := s.regsUpTo_length x
    exact Or.inr ⟨_, by omega, rfl⟩
  | ldVxI x =>
    obtain ⟨-, rfl⟩ := exec_ldVxI_next h
    obtain ⟨v, hv⟩ := s.loadedFromI_fields x
    exact Or.inl (by rw [hv])
  | ret =>
    obtain ⟨j, -, rfl⟩ := exec_ret_next h
    exact Or.inl rfl
  | call nnn =>
    obtain ⟨j, -, rfl⟩ := exec_call_next h
    exact Or.inl rfl
  | drw x y n =>
    obtain ⟨-, -, rfl⟩ := exec_drw_next h
    exact Or.inl rfl
  | skp | sknp =>
    obtain ⟨k, -, rfl⟩ := State.skipOnKey_next h
    exact Or.inl rfl
  | ldVxK x =>
    obtain rfl | ⟨k, -, rfl⟩ := exec_ldVxK_next h
    · exact Or.inl rfl
    · exact Or.inl rfl
  | unknown8 | unknownE | unknownF => cases h
  | cls | sys | jp | seImm | sneImm | seReg | ldImm | addImm | ldReg | orReg | andReg | xorReg | addReg | subReg | shr
  | subn | shl | sneReg | ldI | jpV0 | rnd | ldVxDT | ldDTVx | ldSTVx | addIVx | ldF =>
    cases h
    exact Or.inl rfl

theorem exec_keeps_mem_wf {i : Instr} {s t : State} (hwf : s.mem.wf = true) (h : exec i s = .next t) :
    t.mem.wf = true := by
  obtain hsame | ⟨bs, hle, hstored⟩ := exec_mem_cases h
  · rw [hsame]
    exact hwf
  · rw [hstored]
    exact Memory.wf_writeList bs hwf hle

theorem addrWord_toNat_lt (nnn : Addr12) : (addrWord nnn).toNat < 4096 := by
  rw [addrWord_toNat]
  exact nnn.isLt

/-- An advance or a skip from a `pc` that was fetched does not wrap. -/
theorem fetched_pc_add_toNat {p : Word} (hp : p.toNat ≤ 4094) {k : Nat} (hk : k ≤ 4) :
    (p + BitVec.ofNat 16 k).toNat = p.toNat + k := by
  rw [BitVec.toNat_add, BitVec.toNat_ofNat]
  omega

/-- Only CALL writes a stack cell, with the address after it. -/
theorem exec_stack_cases {i : Instr} {s t : State} (h : exec i s = .next t) :
    t.stack = s.stack ∨ ∃ j : Fin 32, t.stack = s.stack.set j.val (s.pc + 2) j.isLt := by
  obtain ⟨-, -, -, hkeep, -⟩ := instructionWritesOnlyItsOwn i s t h
  cases i with
  | ret =>
    obtain ⟨j, -, rfl⟩ := exec_ret_next h
    exact Or.inl rfl
  | call nnn =>
    obtain ⟨j, -, rfl⟩ := exec_call_next h
    exact Or.inr ⟨j, rfl⟩
  | _ => exact Or.inl (hkeep not_false).1

theorem exec_keeps_stack_bound {i : Instr} {s t : State} (hpc : s.pc.toNat ≤ 4094)
    (hs : ∀ j, (s.stack.get j).toNat ≤ 0x1000) (h : exec i s = .next t) (k : Fin 32) :
    (t.stack.get k).toNat ≤ 0x1000 := by
  obtain hsame | ⟨j, hset⟩ := exec_stack_cases h
  · rw [hsame]
    exact hs k
  · rw [hset, stack_get_set]
    split
    · have hreturn := fetched_pc_add_toNat hpc (k := 2) (by omega)
      exact hreturn.trans_le (by omega)
    · exact hs k

/-- After a fetched instruction `pc` is a default advance or skip, a return address, a 12-bit target, or a byte more than
one (40_control_flow R101, R103 to R106). -/
theorem exec_keeps_pc_bound {i : Instr} {s t : State} (hpc : s.pc.toNat ≤ 4094)
    (hs : ∀ j, (s.stack.get j).toNat ≤ 0x1000) (h : exec i s = .next t) : t.pc.toNat ≤ 0x10FE := by
  have hadvance : t.pc = s.pc + 2 → t.pc.toNat ≤ 0x10FE := fun e => by
    have htwo := fetched_pc_add_toNat hpc (k := 2) (by omega)
    exact (congrArg BitVec.toNat e).trans_le (htwo.trans_le (by omega))
  have hskip : t.pc = s.pc + 4 → t.pc.toNat ≤ 0x10FE := fun e => by
    have hfour := fetched_pc_add_toNat hpc (k := 4) (by omega)
    exact (congrArg BitVec.toNat e).trans_le (hfour.trans_le (by omega))
  have hdefault := defaultAdvanceOfPc i s t h
  cases i with
  | ret =>
    obtain ⟨j, -, rfl⟩ := exec_ret_next h
    exact (hs j).trans (by decide)
  | jp nnn =>
    cases h
    exact (addrWord_toNat_lt nnn).le.trans (by decide)
  | call nnn =>
    obtain ⟨j, -, rfl⟩ := exec_call_next h
    exact (addrWord_toNat_lt nnn).le.trans (by decide)
  | jpV0 nnn =>
    cases h
    have hv0 := (s.reg 0).isLt
    have hnnn := nnn.isLt
    exact (jpV0Target_toNat (s.reg 0) nnn).trans_le (by omega)
  | ldVxK x =>
    refine hdefault.elim hadvance fun e => ?_
    rw [e]
    omega
  | seImm | sneImm | seReg | sneReg | skp | sknp => exact hdefault.elim hadvance hskip
  | _ => exact hadvance hdefault

/-! ### The statements -/

/-- Settles O45: memory lists nothing, and every stack cell is 0. -/
theorem resetMeetsInvariant : Obligations.ResetMeetsInvariant := by
  refine ⟨State.reset_mem_wf, Nat.zero_le _, fun j => ?_, rfl⟩
  have hcell : State.reset.stack.get j = 0 := Vector.get_replicate 32 0 j
  rw [hcell]
  decide

/-- Settles O46: a step that gives a next state has fetched its instruction, and no part of the invariant is lost over
one. -/
theorem stepKeepsInvariant : Obligations.StepKeepsInvariant := by
  rintro s t ⟨hmem, -, hstack, hcfg⟩ h
  obtain ⟨hpc, hexec⟩ | ⟨-, hfault⟩ := step_cases s
  · rw [hexec] at h
    obtain ⟨-, -, -, -, -, -, -, -, -, -, hsame⟩ := instructionWritesOnlyItsOwn _ s t h
    exact ⟨exec_keeps_mem_wf hmem h, exec_keeps_pc_bound hpc hstack h, exec_keeps_stack_bound hpc hstack h,
      hsame ▸ hcfg⟩
  · rw [hfault] at h
    cases h

/-! ### Host events -/

/-- What holds before `tick`'s loop holds after it, when charging a period keeps it and each step keeps it. -/
theorem sequencerLoop_keeps {P : State → Prop} (hcharge : ∀ s n, P s → P (s.setAcc n))
    (hstep : ∀ s t, P s → step s = .next t → P t) : ∀ (n : Nat) (s : State), P s → P (sequencerLoop n s).state
  | 0, _, hs => hs
  | n + 1, s, hs => by
    have hcharged := hcharge s (s.acc - 1000) hs
    unfold sequencerLoop
    split
    · exact hs
    · dsimp only
      split
      · next t ht => exact sequencerLoop_keeps hcharge hstep n t (hstep _ t hcharged ht)
      · exact hcharged
      · exact hcharged

theorem tick_keeps {P : State → Prop} (hcharge : ∀ s n, P s → P (s.setAcc n))
    (hstep : ∀ s t, P s → step s = .next t → P t) (e : Nat) {s : State} (hs : P s) : P (tick e s).state :=
  sequencerLoop_keeps hcharge hstep _ _ (hcharge s _ hs)

theorem hostReset_inv {s : State} (h : s.cfg.wf = true) : (hostReset s).Inv := by
  have hlen : s.cfg.font.toList.length = 80 := s.cfg.font.length_toList
  obtain ⟨hnil, hpc, hstack, -⟩ := resetMeetsInvariant
  exact ⟨Memory.wf_writeList _ hnil (by omega), hpc, hstack, h⟩

theorem loadProgram_inv {s : State} (h : s.Inv) (bytes : List Byte) : (loadProgram bytes s).state.Inv := by
  obtain ⟨hmem, hpc, hstack, hcfg⟩ := h
  unfold loadProgram
  split
  · exact ⟨hmem, hpc, hstack, hcfg⟩
  · exact ⟨Memory.wf_writeList bytes hmem (by omega), show (0x200 : Word).toNat ≤ 0x10FE by decide, hstack, hcfg⟩

/-- Settles O47: a tick keeps the invariant since each of its steps does; keys, timers, `acc` and the read ports are no
part of it. -/
theorem hostEventKeepsInvariant : Obligations.HostEventKeepsInvariant := by
  intro e s h
  cases e with
  | reset =>
    obtain ⟨-, -, -, hcfg⟩ := h
    exact hostReset_inv hcfg
  | loadProgram bytes => exact loadProgram_inv h bytes
  | tick elapsedMs => exact tick_keeps (fun _ _ hs => hs) stepKeepsInvariant elapsedMs h
  | keyEvent | timerTick | readDisplay | snapshotRegisters => exact h

end Sys2Proof.Machine
end

section
/-! PROOF. What a step does not read: `acc` (10_state R29) and `ST` (R28), and, for its errors, the key latch and `DT` too.
With them the sequencer (60_exceptions R210 to R212): the due steps of a tick, its error, no drift, and the error that
repeats (R205). -/

namespace Sys2Proof.Machine

/-! ### Errors do not depend on the fields that the host's units write -/

/-- The state with other values in the fields that key events, timer ticks and the sequencer write. -/
def State.withUnits (s : State) (key : Vector Bool 16) (dt st : Byte) (acc : Nat) : State :=
  { s with key := key, dt := dt, st := st, acc := acc }

theorem raises_withUnits {i : Instr} {s : State} {f : Fault} (key : Vector Bool 16) (dt st : Byte) (acc : Nat) :
    Raises i (s.withUnits key dt st acc) f ↔ Raises i s f := by
  cases i <;> exact Iff.rfl

theorem exec_fault_withUnits {i : Instr} {s : State} {f : Fault} (h : exec i s = .fault f) (key : Vector Bool 16)
    (dt st : Byte) (acc : Nat) : exec i (s.withUnits key dt st acc) = .fault f := by
  rw [instructionRaisesExactly] at h ⊢
  exact (raises_withUnits key dt st acc).mpr h

/-- A step raises the same error whatever the latch, the timers and `acc` hold. -/
theorem step_fault_withUnits {s : State} {f : Fault} (h : step s = .fault f) (key : Vector Bool 16) (dt st : Byte)
    (acc : Nat) : step (s.withUnits key dt st acc) = .fault f := by
  obtain ⟨hpc, hexec⟩ | ⟨hpc, hfault⟩ := step_cases s
  · rw [hexec] at h
    exact (step_of_fetch (fetch_ok (s := s.withUnits key dt st acc) hpc)).trans (exec_fault_withUnits h key dt st acc)
  · exact (step_of_pc_above (s := s.withUnits key dt st acc) hpc).trans (hfault.symm.trans h)

theorem step_fault_setAcc {s : State} {f : Fault} (h : step s = .fault f) (n : Nat) : step (s.setAcc n) = .fault f :=
  step_fault_withUnits h s.key s.dt s.st n

/-- One event other than a reset or a load keeps an error: it writes the latch, the timers or `acc`, or reads; a tick
ends at the failing step. -/
theorem hostEvent_keeps_fault {e : HostEvent} {s : State} {f : Fault} (he : e.keepsProgram = true)
    (h : step s = .fault f) : step (hostEvent e s).state = .fault f := by
  cases e with
  | reset | loadProgram => cases he
  | tick elapsedMs =>
    refine tick_keeps (P := fun u => step u = .fault f) (fun _ n hu => step_fault_setAcc hu n) ?_ elapsedMs h
    intro u t hu ht
    rw [hu] at ht
    cases ht
  | keyEvent k p => exact step_fault_withUnits h (s.setKey k p).key s.dt s.st s.acc
  | timerTick => exact step_fault_withUnits h s.key (countDown s.dt) (countDown s.st) s.acc
  | readDisplay | snapshotRegisters => exact h

/-- Settles O56, by induction on the events. -/
theorem errorRepeatsForEver : Obligations.ErrorRepeatsForEver := by
  intro es
  induction es with
  | nil => exact fun _ _ _ h => h
  | cons e es ih =>
    intro s f hes h
    obtain ⟨he, hrest⟩ := List.forall_mem_cons.mp hes
    exact ih (hostEvent e s).state f hrest (hostEvent_keeps_fault he h)

/-! ### `acc` and `ST` are carried along -/

/-- The state with `acc` and `ST` changed by functions of their own values. -/
def State.mapUnread (fa : Nat → Nat) (fb : Byte → Byte) (s : State) : State := { s with acc := fa s.acc, st := fb s.st }

section
variable (fa : Nat → Nat) (fb : Byte → Byte) (s : State)

theorem State.loadRegs_mapUnread : ∀ (bs : List Byte) (s : State) (k : Nat),
    (s.mapUnread fa fb).loadRegs k bs = (s.loadRegs k bs).mapUnread fa fb
  | [], _, _ => rfl
  | b :: bs, s, k => by
    unfold State.loadRegs
    split
    · exact State.loadRegs_mapUnread bs (s.setReg ⟨k, ‹_›⟩ b) (k + 1)
    · rfl

theorem State.loadedFromI_mapUnread (x : Reg) :
    (s.mapUnread fa fb).loadedFromI x = (s.loadedFromI x).mapUnread fa fb := by
  rw [State.loadedFromI, State.loadedFromI]
  exact congrArg State.advance (State.loadRegs_mapUnread fa fb _ s 0)

end

/-- An instruction other than LD ST, Vx gives the same next state but for the `acc` and the `ST` it started with. -/
theorem exec_next_mapUnread {i : Instr} {s t : State} (hi : ∀ x, i ≠ .ldSTVx x) (fa : Nat → Nat) (fb : Byte → Byte)
    (h : exec i s = .next t) : exec i (s.mapUnread fa fb) = .next (t.mapUnread fa fb) := by
  cases i with
  | ldSTVx x => exact absurd rfl (hi x)
  | ret =>
    obtain ⟨j, hj, rfl⟩ := exec_ret_next h
    exact exec_ret_at (s := s.mapUnread fa fb) hj
  | call nnn =>
    obtain ⟨j, hj, rfl⟩ := exec_call_next h
    exact exec_call_at (s := s.mapUnread fa fb) hj nnn
  | ldB x =>
    obtain ⟨hle, rfl⟩ := exec_ldB_next h
    exact exec_ldB_of_le (s := s.mapUnread fa fb) hle
  | ldIVx x =>
    obtain ⟨hle, rfl⟩ := exec_ldIVx_next h
    exact exec_ldIVx_of_le (s := s.mapUnread fa fb) hle
  | ldVxI x =>
    obtain ⟨hle, rfl⟩ := exec_ldVxI_next h
    rw [exec_ldVxI_of_le (s := s.mapUnread fa fb) hle, State.loadedFromI_mapUnread]
  | drw x y n =>
    obtain ⟨hr, ha, rfl⟩ := exec_drw_next h
    exact exec_drw_of_allowed (s := s.mapUnread fa fb) hr ha
  | skp x =>
    obtain ⟨k, hk, rfl⟩ := State.skipOnKey_next h
    exact State.skipOnKey_of_key (s := s.mapUnread fa fb) hk true
  | sknp x =>
    obtain ⟨k, hk, rfl⟩ := State.skipOnKey_next h
    exact State.skipOnKey_of_key (s := s.mapUnread fa fb) hk false
  | ldVxK x =>
    cases hk : s.leastKey with
    | none =>
      cases next_unique h (exec_ldVxK_of_none hk x)
      exact exec_ldVxK_of_none (s := s.mapUnread fa fb) hk x
    | some k =>
      cases next_unique h (exec_ldVxK_of_some hk x)
      exact exec_ldVxK_of_some (s := s.mapUnread fa fb) hk x
  | unknown8 | unknownE | unknownF => cases h
  | cls | sys | jp | seImm | sneImm | seReg | ldImm | addImm | ldReg | orReg | andReg | xorReg | addReg | subReg | shr
  | subn | shl | sneReg | ldI | jpV0 | rnd | ldVxDT | ldDTVx | addIVx | ldF =>
    cases h
    rfl

theorem exec_next_setAcc {i : Instr} {s t : State} (h : exec i s = .next t) (n : Nat) :
    exec i (s.setAcc n) = .next (t.setAcc n) := by
  by_cases hi : ∃ x, i = .ldSTVx x
  · obtain ⟨x, rfl⟩ := hi
    cases h
    rfl
  · exact exec_next_mapUnread (fun x e => hi ⟨x, e⟩) (fun _ => n) id h

/-- LD ST, Vx sets `ST` whatever it held; any other instruction carries it along. -/
theorem exec_next_setST {i : Instr} {s t : State} (h : exec i s = .next t) (b : Byte) :
    ∃ c, exec i (s.setST b) = .next (t.setST c) := by
  by_cases hi : ∃ x, i = .ldSTVx x
  · obtain ⟨x, rfl⟩ := hi
    cases h
    exact ⟨s.reg x, rfl⟩
  · exact ⟨b, exec_next_mapUnread (fun x e => hi ⟨x, e⟩) id (fun _ => b) h⟩

/-- A step that gives a next state has fetched its instruction. -/
theorem step_next {s t : State} (h : step s = .next t) :
    s.pc.toNat ≤ 4094 ∧ exec (decodeWord (wordOfBytes (s.byteAt s.pc.toNat) (s.byteAt (s.pc.toNat + 1)))) s = .next t := by
  obtain ⟨hpc, hexec⟩ | ⟨-, hfault⟩ := step_cases s
  · exact ⟨hpc, hexec ▸ h⟩
  · rw [hfault] at h
    cases h

theorem step_next_setAcc {s t : State} (h : step s = .next t) (n : Nat) : step (s.setAcc n) = .next (t.setAcc n) := by
  obtain ⟨hpc, hexec⟩ := step_next h
  exact (step_of_fetch (fetch_ok (s := s.setAcc n) hpc)).trans (exec_next_setAcc hexec n)

/-- Settles O51: neither the error nor the next state of a step depends on `acc`. -/
theorem accumulatorIsInvisible : Obligations.AccumulatorIsInvisible := by
  intro n s
  obtain ⟨t, ht⟩ | ⟨f, hf, -⟩ := step_next_or_fault s
  · rw [ht, step_next_setAcc ht]
    rfl
  · rw [hf, step_fault_setAcc hf]
    rfl

/-- Settles O52: neither the error nor, but for `ST`, the next state of a step depends on `ST`. -/
theorem soundTimerIsInvisible : Obligations.SoundTimerIsInvisible := by
  intro b s
  constructor
  · intro t ht
    obtain ⟨hpc, hexec⟩ := step_next ht
    obtain ⟨c, hc⟩ := exec_next_setST hexec b
    exact ⟨c, (step_of_fetch (fetch_ok (s := s.setST b) hpc)).trans hc⟩
  · exact fun f hf => step_fault_withUnits hf s.key s.dt b s.acc

/-! ### Runs -/

theorem core_run_succ_next {k : Nat} {s u : State} (h : core.run (k + 1) s = .next u) :
    ∃ t, step s = .next t ∧ core.run k t = .next u := by
  obtain ⟨t, ht⟩ | ⟨f, hf, -⟩ := step_next_or_fault s
  · exact ⟨t, ht, (core_run_next ht).symm.trans h⟩
  · rw [core_run_fault hf] at h
    cases h

theorem step_keeps_cfg {s t : State} (h : step s = .next t) : t.cfg = s.cfg := by
  obtain ⟨-, -, -, -, -, -, -, -, -, -, hcfg⟩ := instructionWritesOnlyItsOwn _ s t (step_next h).2
  exact hcfg

/-- No run changes a parameter of the machine (10_state R30). -/
theorem core_run_keeps_cfg : ∀ {k : Nat} {s u : State}, core.run k s = .next u → u.cfg = s.cfg
  | 0, _, _, h => by
    cases h
    rfl
  | k + 1, s, u, h => by
    obtain ⟨t, ht, hrun⟩ := core_run_succ_next h
    exact (core_run_keeps_cfg hrun).trans (step_keeps_cfg ht)

/-- A run of `n` steps completes, or one of them is the first to fail. -/
theorem core_run_or_fails : ∀ (n : Nat) (s : State), (∃ u : State, core.run n s = .next u) ∨
    ∃ (j : Nat) (u : State) (f : Fault), j < n ∧ core.run j s = .next u ∧ step u = .fault f
  | 0, s => Or.inl ⟨s, core_run_zero s⟩
  | n + 1, s => by
    obtain ⟨t, ht⟩ | ⟨f, hf, -⟩ := step_next_or_fault s
    · obtain ⟨u, hu⟩ | ⟨j, u, f, hj, hu, hf⟩ := core_run_or_fails n t
      · exact Or.inl ⟨u, (core_run_next ht).trans hu⟩
      · exact Or.inr ⟨j + 1, u, f, by omega, (core_run_next ht).trans hu, hf⟩
    · exact Or.inr ⟨0, s, f, by omega, core_run_zero s, hf⟩

/-! ### The loop of a tick -/

theorem State.setAcc_setAcc (s : State) (m n : Nat) : (s.setAcc m).setAcc n = s.setAcc n := rfl

/-- A due period whose step gives a next state. -/
theorem sequencerLoop_succ_next {n : Nat} {s t : State} (hdue : 1000 ≤ s.acc) (h : step s = .next t) :
    sequencerLoop (n + 1) s = sequencerLoop n (t.setAcc (s.acc - 1000)) := by
  simp only [sequencerLoop, if_neg (Nat.not_lt.mpr hdue), step_next_setAcc h]

/-- A due period whose step raises. -/
theorem sequencerLoop_succ_fault {n : Nat} {s : State} {f : Fault} (hdue : 1000 ≤ s.acc) (h : step s = .fault f) :
    sequencerLoop (n + 1) s = ⟨s.setAcc (s.acc - 1000), .error f⟩ := by
  simp only [sequencerLoop, if_neg (Nat.not_lt.mpr hdue), step_fault_setAcc h]

/-- While `k` periods are due the loop runs the `k` steps and charges each. -/
theorem sequencerLoop_run (n a : Nat) : ∀ {k : Nat} {s u : State}, core.run k s = .next u →
    sequencerLoop (k + n) (s.setAcc (a + 1000 * k)) = sequencerLoop n (u.setAcc a)
  | 0, s, u, h => by
    cases h
    rw [Nat.zero_add, Nat.mul_zero, Nat.add_zero]
  | k + 1, s, u, h => by
    obtain ⟨t, ht, hrun⟩ := core_run_succ_next h
    have hstep := step_next_setAcc ht (a + 1000 * (k + 1))
    have hcharge : a + 1000 * (k + 1) - 1000 = a + 1000 * k := by omega
    rw [Nat.add_right_comm, sequencerLoop_succ_next (by rw [State.setAcc_acc]; omega) hstep, State.setAcc_acc, hcharge,
      State.setAcc_setAcc]
    exact sequencerLoop_run n a hrun

theorem hostEvent_tick (e : Nat) (s : State) : hostEvent (.tick e) s =
    sequencerLoop ((s.acc + e * s.cfg.clockHz) / 1000) (s.setAcc (s.acc + e * s.cfg.clockHz)) := rfl

/-- Settles O53: the loop runs the due steps, and no period is then left. -/
theorem tickRunsTheDueSteps : Obligations.TickRunsTheDueSteps := by
  intro e s u h
  have hloop := sequencerLoop_run 0 ((s.acc + e * s.cfg.clockHz) % 1000) h
  rw [Nat.mod_add_div, Nat.add_zero] at hloop
  exact (hostEvent_tick e s).trans hloop

/-- Settles O54: the loop runs the steps before, and charges the failing one's period. -/
theorem tickStopsAtFailingStep : Obligations.TickStopsAtFailingStep := by
  intro e j s u f hj hrun hf
  rw [hostEvent_tick]
  generalize s.acc + e * s.cfg.clockHz = total at hj ⊢
  obtain ⟨m, hm⟩ := Nat.exists_eq_add_of_lt hj
  have hloop := sequencerLoop_run (m + 1) (total - 1000 * j) hrun
  rw [Nat.sub_add_cancel (by omega)] at hloop
  have hfail := sequencerLoop_succ_fault (n := m) (by rw [State.setAcc_acc]; omega)
    (step_fault_setAcc hf (total - 1000 * j))
  have hcharge : total - 1000 * j - 1000 = total - 1000 * (j + 1) := by omega
  rw [hm, Nat.add_assoc, hloop, hfail, State.setAcc_acc, State.setAcc_setAcc, hcharge]

/-- Settles O55: an error-free first tick has run its due steps, which the one tick of the whole time runs first; what is
left of `acc` and of the loop is then the same. -/
theorem ticksDoNotDrift : Obligations.TicksDoNotDrift := by
  intro d e s hok
  obtain ⟨u, hrun⟩ | ⟨j, u, f, hj, hrun, hf⟩ := core_run_or_fails ((s.acc + d * s.cfg.clockHz) / 1000) s
  · have hfirst := tickRunsTheDueSteps d s u hrun
    have hcfg := core_run_keeps_cfg hrun
    rw [hfirst, hostEvent_tick, hostEvent_tick]
    dsimp only
    rw [State.setAcc_acc, State.setAcc_setAcc, State.setAcc_cfg, hcfg,
      Nat.add_mul, ← Nat.add_assoc]
    generalize s.acc + d * s.cfg.clockHz = first at hrun
    generalize e * s.cfg.clockHz = second
    have hloop := sequencerLoop_run ((first % 1000 + second) / 1000) (first % 1000 + second) hrun
    have hperiods : first / 1000 + (first % 1000 + second) / 1000 = (first + second) / 1000 := by omega
    have htotal : first % 1000 + second + 1000 * (first / 1000) = first + second := by omega
    rw [hperiods, htotal] at hloop
    exact hloop.symm
  · rw [tickStopsAtFailingStep d j s u f hj hrun hf] at hok
    cases hok

end Sys2Proof.Machine
end

section
/-! PROOF. The reset state (10_state R31) and `load_program` (70_reset_and_hazards R252, R253). -/

namespace Sys2Proof.Machine

/-! ### The reset state -/

theorem reset_byteAt (a : Nat) : State.reset.byteAt a = Memory.unlisted a := rfl

theorem Memory.unlisted_below {a : Nat} (h : a < 80) : Memory.unlisted a = defaultFont.get ⟨a, h⟩ := dif_pos h

/-- Settles O49: the registers, stack, display and keys are one value repeated; memory lists nothing, so it reads as the
default `FONT` below 80 and as 0 from there on. -/
theorem resetStateValues : Obligations.ResetStateValues := by
  have hreg : ∀ r, State.reset.reg r = 0 := Vector.get_replicate 16 0
  have hstack : ∀ j, State.reset.stack.get j = 0 := Vector.get_replicate 32 0
  have hpixel : ∀ cx cy, State.reset.pixel cx cy = false := Display.cell_clear
  have hkey : ∀ k, State.reset.keyAt k = false := Vector.get_replicate 16 false
  have hfont : ∀ a : Fin 80, State.reset.byteAt a.val = State.reset.cfg.font.get a := fun a =>
    (reset_byteAt a.val).trans (Memory.unlisted_below a.isLt)
  have habove : ∀ a, 80 ≤ a → State.reset.byteAt a = 0 := fun a h => (reset_byteAt a).trans (Memory.unlisted_above h)
  exact ⟨hreg, rfl, rfl, rfl, hstack, hpixel, hkey, rfl, rfl, rfl, hfont, habove⟩

/-! ### Loading a program -/

theorem loadProgram_of_lt {bytes : List Byte} (h : 3584 < bytes.length) (s : State) :
    hostEvent (.loadProgram bytes) s = ⟨s, .error .romTooLarge⟩ :=
  if_pos h

theorem loadProgram_of_le {bytes : List Byte} (h : bytes.length ≤ 3584) (s : State) :
    hostEvent (.loadProgram bytes) s = ⟨(s.setMem (s.mem.writeList 0x200 bytes)).setPc 0x200, .ok⟩ :=
  if_neg (Nat.not_lt.mpr h)

/-- Settles O50: up to 3584 bytes from 0x200 end within memory, and only they and `pc` are written. -/
theorem loadProgramResult : Obligations.LoadProgramResult := by
  intro bytes s
  refine ⟨fun h => loadProgram_of_lt h s, fun h hwf => ⟨_, loadProgram_of_le h s, ?_, fun k hk => ?_, rfl⟩⟩
  · exact ((Keeps.refl _ s).setMem_writeList fun _ => And.intro).setPc _
  · exact Memory.read_writeList_inside bytes hwf (by omega) hk

end Sys2Proof.Machine
end
